-- ==== Sys2Proof/Word.lean ====
section
/-!
DEFINITION. The two word types of the machine (spec/00_scope.md R7, R8).
-/

namespace Sys2Proof

/-- `Word` of R8: 16 bits, bit 15 the most significant (R7). -/
abbrev Word := BitVec 16

/-- `Addr` of R8: a 15-bit word address, 0 to 32767. -/
abbrev Addr := BitVec 15

end Sys2Proof
end

