-- ==== Sys2Proof/Config.lean ====
section
/-!
DEFINITION. The named parameters of spec/00_scope.md R6 that are plain data, with the defaults R6 gives.
`BaseStep` and `Interrupts`, which are functions, are arguments of the definitions in Machine/Platform.lean.
-/

namespace Sys2Proof

/-- `BIT15_POLICY` (R6, R76): what a word used as a word address does when its bit 15 is 1. -/
inductive Bit15Policy where
  | refuse
  | mask
  deriving DecidableEq, Repr

/-- `SLAS_NONDIRECT` (R6, R110): whether SLAS runs in the indexed, POP and PUSH modes. -/
inductive SlasPolicy where
  | refuse
  | sea
  deriving DecidableEq, Repr

/-- The parameters of R6, which `step` leaves as they are; log entry 3 says why they stand in `State`, and 23 and 24 what else may
change them. -/
structure Config where
  /-- `MEM_WORDS`: installed memory words, 1 to 32768 (R31). -/
  memWords : Nat
  /-- `BIT15_POLICY` (R76). -/
  bit15 : Bit15Policy
  /-- `CMSS_SIGNED` (R100). -/
  cmssSigned : Bool
  /-- `SLAS_NONDIRECT` (R110). -/
  slasNondirect : SlasPolicy
  /-- `HALT_ADDR` (R162), "chosen per program"; none: no end of the run is designated (log entry 4). -/
  haltAddr : Option Addr
  deriving DecidableEq, Repr

/-- The defaults of R6's table. -/
def Config.default : Config where
  memWords := 32768
  bit15 := .refuse
  cmssSigned := true
  slasNondirect := .sea
  haltAddr := none

/-- The range R6 gives `MEM_WORDS`. -/
abbrev Config.wf (c : Config) : Prop := 1 ≤ c.memWords ∧ c.memWords ≤ 32768

end Sys2Proof
end

