-- ==== Sys2Proof/Syntax.lean ====
section
/-!
DEFINITION. The 20 instructions of spec/opcode_table.json as syntax: one constructor per row.
-/

namespace Sys2Proof

/-- The addressing modes of the stack instructions (spec/30_encoding.md R53). -/
inductive Mode where
  /-- AM = 00, direct access to stack (R71). -/
  | direct
  /-- AM = 01, indexed access to stack, `@` (R72). -/
  | indexed
  /-- AM = 10, auto-increment access to stack, POP, `+` (R73). -/
  | pop
  /-- AM = 11, auto-decrement access to stack, PUSH, `-` (R74). -/
  | push
  deriving DecidableEq, Repr

/-- The 20 extended instructions (R1). A stack instruction carries its addressing mode AM and its whole second
word, the stack pointer address SPA (R54): all 16 bits, since what bit 15 does is a parameter (R76). -/
inductive Instr where
  /-- AND stack element to A (R82). -/
  | ands (am : Mode) (spa : Word)
  /-- Add stack element to A (R80). -/
  | adds (am : Mode) (spa : Word)
  /-- Subtract stack element from A (R81). -/
  | subs (am : Mode) (spa : Word)
  /-- Store A in stack element (R93). -/
  | stas (am : Mode) (spa : Word)
  /-- Inclusive OR stack element to A (R83). -/
  | iors (am : Mode) (spa : Word)
  /-- Exclusive OR stack element to A (R84). -/
  | xors (am : Mode) (spa : Word)
  /-- Load stack element into A (R91). -/
  | ldas (am : Mode) (spa : Word)
  /-- Exchange stack element and A (R90). -/
  | emas (am : Mode) (spa : Word)
  /-- Stack location to A (R110). -/
  | slas (am : Mode) (spa : Word)
  /-- Compare and skip if high or equal (R100). -/
  | cmss (am : Mode) (spa : Word)
  /-- Increment stack element and skip on zero result (R101). -/
  | imss (am : Mode) (spa : Word)
  /-- Load stack element into X (R92). -/
  | ldxs (am : Mode) (spa : Word)
  /-- Store X in stack element (R94). -/
  | stxs (am : Mode) (spa : Word)
  /-- Jump unconditional (R102). -/
  | jmps (am : Mode) (spa : Word)
  /-- Jump and store (R103). -/
  | jsts (am : Mode) (spa : Word)
  /-- Execute instruction pointed to by X (R125). -/
  | eix
  /-- Bit set X (R123). -/
  | bsx
  /-- Bit set A (R122). -/
  | bsa
  /-- Bit clear X (R121). -/
  | bcx
  /-- Bit clear A (R120). -/
  | bca
  deriving DecidableEq, Repr

/-- The operand fields AM and SPA of a stack instruction; none for a register change instruction, whose operands
are implicit (R60). -/
def Instr.operands? : Instr → Option (Mode × Word)
  | .ands am spa => some (am, spa)
  | .adds am spa => some (am, spa)
  | .subs am spa => some (am, spa)
  | .stas am spa => some (am, spa)
  | .iors am spa => some (am, spa)
  | .xors am spa => some (am, spa)
  | .ldas am spa => some (am, spa)
  | .emas am spa => some (am, spa)
  | .slas am spa => some (am, spa)
  | .cmss am spa => some (am, spa)
  | .imss am spa => some (am, spa)
  | .ldxs am spa => some (am, spa)
  | .stxs am spa => some (am, spa)
  | .jmps am spa => some (am, spa)
  | .jsts am spa => some (am, spa)
  | .eix => none
  | .bsx => none
  | .bsa => none
  | .bcx => none
  | .bca => none

/-- The mnemonic of the row of spec/opcode_table.json the instruction stands for. -/
def Instr.mnemonic : Instr → String
  | .ands _ _ => "ANDS"
  | .adds _ _ => "ADDS"
  | .subs _ _ => "SUBS"
  | .stas _ _ => "STAS"
  | .iors _ _ => "IORS"
  | .xors _ _ => "XORS"
  | .ldas _ _ => "LDAS"
  | .emas _ _ => "EMAS"
  | .slas _ _ => "SLAS"
  | .cmss _ _ => "CMSS"
  | .imss _ _ => "IMSS"
  | .ldxs _ _ => "LDXS"
  | .stxs _ _ => "STXS"
  | .jmps _ _ => "JMPS"
  | .jsts _ _ => "JSTS"
  | .eix => "EIX"
  | .bsx => "BSX"
  | .bsa => "BSA"
  | .bcx => "BCX"
  | .bca => "BCA"

/-- The length in words (R50): two for a stack instruction, one for a register change instruction. -/
def Instr.length (i : Instr) : Nat := if i.operands?.isSome then 2 else 1

end Sys2Proof
end

