-- ==== Sys2Proof/WellFormed.lean ====
section
/-!
DEFINITION. Well-formed instructions: the second word has the format of spec/30_encoding.md R54.
-/

namespace Sys2Proof

/-- R54: "bit 15 = 0; bits 14:0 = SPA". An instruction whose second word has bit 15 set is still syntax: what it does
is R76's parameter. -/
def Instr.wf (i : Instr) : Bool :=
  match i.operands? with
  | some (_, spa) => !spa.msb
  | none => true

end Sys2Proof
end

