-- ==== Sys2Proof/Decode.lean ====
section
/-!
DEFINITION. Decoding (spec/30_encoding.md R50 to R59), total on any words and rejecting by name, and the encoder.
-/

namespace Sys2Proof

/-- Why words are no instruction of the 20. -/
inductive DecodeError where
  /-- A first word of the stack format whose OP CODE R52 does not list (R59 a). -/
  | undefinedStackOpcode
  /-- Any other word: it belongs to the base machine or to nothing (R59 b). -/
  | notExtendedInstruction
  /-- The list of words ends inside the instruction. -/
  | truncated
  deriving DecidableEq, Repr

/-- AM, bits 1:0 (R53). -/
def Mode.code : Mode → BitVec 2
  | .direct => 0b00
  | .indexed => 0b01
  | .pop => 0b10
  | .push => 0b11

/-- The mode that an AM field names (R53). -/
def modeOfCode (am : BitVec 2) : Mode :=
  match am.toNat with
  | 0 => .direct
  | 1 => .indexed
  | 2 => .pop
  | _ => .push

/-- OP CODE, bits 9:5 of the first word (R52). -/
def stackInstr (op : BitVec 5) (am : Mode) (spa : Word) : Option Instr :=
  match op.toNat with
  | 0b00000 => some (.ands am spa)
  | 0b00001 => some (.adds am spa)
  | 0b00010 => some (.subs am spa)
  | 0b00011 => some (.stas am spa)
  | 0b00100 => some (.iors am spa)
  | 0b00101 => some (.xors am spa)
  | 0b00110 => some (.ldas am spa)
  | 0b00111 => some (.emas am spa)
  | 0b10000 => some (.slas am spa)
  | 0b10010 => some (.cmss am spa)
  | 0b10011 => some (.imss am spa)
  | 0b10100 => some (.ldxs am spa)
  | 0b10101 => some (.stxs am spa)
  | 0b10110 => some (.jmps am spa)
  | 0b10111 => some (.jsts am spa)
  | _ => none

/-- Bits 15:10 = 000101 and bits 4:2 = 110 (R51, R58). -/
def isStackFormat (w : Word) : Bool := (w &&& 0xFC1C) == 0x1418

/-- The OP CODE field (R51). -/
def opField (w : Word) : BitVec 5 := w.extractLsb' 5 5

/-- The AM field (R51, R60). -/
def amField (w : Word) : BitVec 2 := w.extractLsb' 0 2

/-- R50: the first word alone decides the length; a defined stack first word has a second word. -/
def hasSecondWord (w1 : Word) : Bool :=
  isStackFormat w1 && (stackInstr (opField w1) .direct 0).isSome

/-- R58. `w2` is the second word, which only a stack instruction uses. -/
def decode (w1 w2 : Word) : Except DecodeError Instr :=
  if w1 = 0x0218 then .ok .eix
  else if w1 = 0x0688 then .ok .bsx
  else if w1 = 0x068A then .ok .bsa
  else if w1 = 0x06C8 then .ok .bcx
  else if w1 = 0x06CA then .ok .bca
  else if isStackFormat w1 then
    match stackInstr (opField w1) (modeOfCode (amField w1)) w2 with
    | some i => .ok i
    | none => .error .undefinedStackOpcode
  else .error .notExtendedInstruction

/-- The instruction at the head of a list of words, and the words after it. -/
def decodeWords : List Word → Except DecodeError (Instr × List Word)
  | [] => .error .truncated
  | w1 :: rest =>
    if hasSecondWord w1 then
      match rest with
      | [] => .error .truncated
      | w2 :: rest' =>
        match decode w1 w2 with
        | .ok i => .ok (i, rest')
        | .error e => .error e
    else
      match decode w1 0 with
      | .ok i => .ok (i, rest)
      | .error e => .error e

/-- The first word of a stack instruction, field by field (R51). -/
def stackWord (op : BitVec 5) (am : Mode) : Word :=
  0b000101#6 ++ op ++ 0b110#3 ++ am.code

/-- The words of an instruction (R52, R54, R57). -/
def encode : Instr → List Word
  | .ands am spa => [stackWord 0b00000 am, spa]
  | .adds am spa => [stackWord 0b00001 am, spa]
  | .subs am spa => [stackWord 0b00010 am, spa]
  | .stas am spa => [stackWord 0b00011 am, spa]
  | .iors am spa => [stackWord 0b00100 am, spa]
  | .xors am spa => [stackWord 0b00101 am, spa]
  | .ldas am spa => [stackWord 0b00110 am, spa]
  | .emas am spa => [stackWord 0b00111 am, spa]
  | .slas am spa => [stackWord 0b10000 am, spa]
  | .cmss am spa => [stackWord 0b10010 am, spa]
  | .imss am spa => [stackWord 0b10011 am, spa]
  | .ldxs am spa => [stackWord 0b10100 am, spa]
  | .stxs am spa => [stackWord 0b10101 am, spa]
  | .jmps am spa => [stackWord 0b10110 am, spa]
  | .jsts am spa => [stackWord 0b10111 am, spa]
  | .eix => [0x0218]
  | .bsx => [0x0688]
  | .bsa => [0x068A]
  | .bcx => [0x06C8]
  | .bca => [0x06CA]

/-- A row of spec/opcode_table.json. -/
structure OpcodeRow where
  mnemonic : String
  skeleton : Word
  mask : Word
  lengthWords : Nat
  deriving DecidableEq, Repr

/-- A word belongs to a row when its masked bits are the skeleton's (R58). -/
def OpcodeRow.covers (r : OpcodeRow) (w : Word) : Bool := (w &&& r.mask) == r.skeleton

/-- The register change rows (R57). -/
def registerRows : List OpcodeRow :=
  [⟨"EIX", 0x0218, 0xFFFF, 1⟩, ⟨"BSX", 0x0688, 0xFFFF, 1⟩, ⟨"BSA", 0x068A, 0xFFFF, 1⟩,
   ⟨"BCX", 0x06C8, 0xFFFF, 1⟩, ⟨"BCA", 0x06CA, 0xFFFF, 1⟩]

/-- The stack rows (R52). -/
def stackRows : List OpcodeRow :=
  [⟨"ANDS", 0x1418, 0xFFFC, 2⟩, ⟨"ADDS", 0x1438, 0xFFFC, 2⟩, ⟨"SUBS", 0x1458, 0xFFFC, 2⟩,
   ⟨"STAS", 0x1478, 0xFFFC, 2⟩, ⟨"IORS", 0x1498, 0xFFFC, 2⟩, ⟨"XORS", 0x14B8, 0xFFFC, 2⟩,
   ⟨"LDAS", 0x14D8, 0xFFFC, 2⟩, ⟨"EMAS", 0x14F8, 0xFFFC, 2⟩, ⟨"SLAS", 0x1618, 0xFFFC, 2⟩,
   ⟨"CMSS", 0x1658, 0xFFFC, 2⟩, ⟨"IMSS", 0x1678, 0xFFFC, 2⟩, ⟨"LDXS", 0x1698, 0xFFFC, 2⟩,
   ⟨"STXS", 0x16B8, 0xFFFC, 2⟩, ⟨"JMPS", 0x16D8, 0xFFFC, 2⟩, ⟨"JSTS", 0x16F8, 0xFFFC, 2⟩]

/-- The 20 rows of the opcode table, in its order. -/
def opcodeRows : List OpcodeRow := registerRows ++ stackRows

/-- The row an instruction stands for, found by its mnemonic. -/
def Instr.row? (i : Instr) : Option OpcodeRow := opcodeRows.find? (fun r => r.mnemonic == i.mnemonic)

/-- What the decoder reads from an instruction whose bits are `w`: the low 16 of the `nbits` bits are the first word,
the next 16 the second, and every bit above `nbits` is 0. -/
def decodeTableWord (nbits w : Nat) : Option Instr :=
  match decodeWords [BitVec.ofNat 16 (w % 2 ^ nbits), BitVec.ofNat 16 (w % 2 ^ nbits / 65536)] with
  | .ok (i, _) => some i
  | .error _ => none

end Sys2Proof
end

