-- ==== Sys2Proof/Machine/State.lean ====
section
/-!
DEFINITION. The machine's state (spec/10_state.md R10 to R22), the reasons a step can stop, and the state after reset.
-/

namespace Sys2Proof.Machine

/-- Why a step ends in a fault. The hardware itself raises none (spec/60_exceptions.md R140). -/
inductive Fault where
  /-- The run has ended: P equals `HALT_ADDR` before a fetch, and no step is made (R130, R162). Raised by `step`
  alone. Safe: nothing is claimed of the processor at that address. -/
  | runEnded
  deriving DecidableEq, Repr

/-- The spec's `refuse(reason)` conditions (R140): points where no source says what the hardware does. All are safe: a
claim about a run that reaches one cannot be proved. -/
inductive Refusal where
  /-- Raised by an arm of `exec` whose instruction has no meaning yet. Safe. -/
  | notModelled (mnemonic : String)
  /-- `refuse(address_bit15_set)`, raised by `addr15`: a word used as an address has bit 15 = 1 under
  `BIT15_POLICY` = refuse (R76). Safe. -/
  | addressBit15Set
  /-- `refuse(P_out_of_range)`, raised by `advance`: `loc + k` or `SEA + 1` exceeds 32767 (R15). Safe. -/
  | pOutOfRange
  /-- `refuse(nonexistent_memory)`, raised by `checkInstalled`: an access at or above `MEM_WORDS` (R31). Safe. -/
  | nonexistentMemory
  /-- `refuse(undefined_stack_opcode)`, raised by the fetch: a stack-format word with an unlisted OP CODE (R59). Safe. -/
  | undefinedStackOpcode
  /-- `refuse(not_extended_instruction)`, raised by the fetch: a word that is none of the 20, with `BaseStep`
  undefined (R59, R131). Safe. -/
  | notExtendedInstruction
  /-- `refuse(eix_nested)`, raised by EIX: the executed word is itself EIX (R129). Safe. -/
  | eixNested
  /-- `refuse(slas_nondirect)`, raised by SLAS outside direct mode under `SLAS_NONDIRECT` = refuse (R110). Safe. -/
  | slasNondirect
  deriving DecidableEq, Repr

/-- Memory (R20, R30): the words that differ from what an unlisted address reads as, by rising word address. The cell is
the spec's smallest unit, one 16-bit word (R32; log entry 19). -/
abbrev Memory := List (Nat × Word)

/-- The architectural state (R10 to R20), and the parameters of R6 (log entry 3). -/
structure State where
  /-- The A register (R10). -/
  a : Word
  /-- The X register (R11). -/
  x : Word
  /-- The P counter (R12). -/
  p : Addr
  /-- The OV indicator (R16). -/
  ov : Bool
  /-- Memory (R20). -/
  mem : Memory
  /-- The parameters (R6); `step` changes none of them. A `BaseStep` or an interrupt agent that is supplied may (log
  entries 23 and 24). -/
  cfg : Config
  deriving DecidableEq, Repr

/-- The machine right after reset. The spec states no reset value at all (R22): every one here is a DESIGN CHOICE of log
entries 1 and 2; the parameters have R6's defaults (log entry 3). -/
def State.reset : State where
  a := 0
  x := 0
  p := 0
  ov := false
  mem := []
  cfg := Config.default

end Sys2Proof.Machine
end

