-- ==== Sys2Proof/Machine/Flags.lean ====
section
/-!
DEFINITION. The arithmetic conditions: signed overflow (spec/10_state.md R16, spec/93_implementation_defined.md GK1) and the
order CMSS uses (spec/43_stack_program_transfer.md R100).
-/

namespace Sys2Proof.Machine

/-- `signed` of R8: two's complement (PRESUMED by the spec, GK1: log entry 5). -/
def signed (v : Word) : Int := v.toInt

/-- An exact result outside -32768 to 32767. -/
def outOfRange (z : Int) : Bool := decide (z < -32768 ∨ 32767 < z)

/-- The overflow of `A + M` (R80). -/
def addOverflows (a m : Word) : Bool := outOfRange (signed a + signed m)

/-- The overflow of the exact difference `A - M` (R81). -/
def subOverflows (a m : Word) : Bool := outOfRange (signed a - signed m)

/-- The overflow of `M + 1`: M is 0x7FFF (R101). -/
def incOverflows (m : Word) : Bool := m == 0x7FFF

/-- The condition of the instructions that name no flag (R82 to R84). -/
def neverOverflows (_ _ : Word) : Bool := false

/-- `less` of R100, under `CMSS_SIGNED` (log entry 6). -/
def lessThan (c : Config) (a m : Word) : Bool :=
  if c.cmssSigned then decide (signed a < signed m) else decide (a.toNat < m.toNat)

end Sys2Proof.Machine
end

