-- ==== Sys2Proof/Machine/Ops.lean ====
section
/-!
DEFINITION. The named operations over memory and registers. The machine takes no exception and returns from none
(spec/60_exceptions.md R140, R146), so no operation for either stands here.
-/

namespace Sys2Proof.Machine

/-- What an unlisted address reads as: the contents of memory after reset, which the spec does not give (R22). DESIGN
CHOICE, unsafe: log entry 2. -/
def Memory.unlisted : Word := 0

/-- The word at word address `k`. -/
def Memory.read : Memory → Nat → Word
  | [], _ => Memory.unlisted
  | (j, u) :: m, k => if j = k then u else Memory.read m k

/-- Memory with `v` stored at word address `k`, in canonical form. -/
def Memory.write : Memory → Nat → Word → Memory
  | [], k, v => if v = Memory.unlisted then [] else [(k, v)]
  | (j, u) :: m, k, v =>
    if k < j then
      if v = Memory.unlisted then (j, u) :: m else (k, v) :: (j, u) :: m
    else if k = j then
      if v = Memory.unlisted then m else (k, v) :: m
    else (j, u) :: Memory.write m k v

/-- The canonical form: addresses strictly rising, and no entry equal to what an unlisted address reads as. -/
abbrev Memory.wf (m : Memory) : Prop :=
  m.Pairwise (fun c d => c.1 < d.1) ∧ ∀ c ∈ m, c.2 ≠ Memory.unlisted

/-- `w[14:0]` as a word address (R8). -/
def low15 (w : Word) : Addr := w.setWidth 15

/-- `zext_16` of R8: the address as a word with bit 15 = 0. -/
def zext16 (a : Addr) : Word := a.setWidth 16

/-- `A <- v` (R8). -/
def State.setA (s : State) (v : Word) : State := { s with a := v }

/-- `X <- v` (R8). -/
def State.setX (s : State) (v : Word) : State := { s with x := v }

/-- `P <- v` (R8). -/
def State.setP (s : State) (v : Addr) : State := { s with p := v }

/-- `OV <- 1` if `b`; otherwise OV is left as it was (R16: sticky; log entry 5). -/
def State.raiseOv (s : State) (b : Bool) : State := { s with ov := s.ov || b }

/-- The word at an installed address. -/
def State.load (s : State) (k : Addr) : Word := s.mem.read k.toNat

/-- Memory with `v` stored at an installed address. -/
def State.store (s : State) (k : Addr) (v : Word) : State := { s with mem := s.mem.write k.toNat v }

/-- `addr15` of R8 and R76: a word used as a word address (log entry 8). -/
def addr15 (c : Config) (v : Word) : Except Refusal Addr :=
  match c.bit15 with
  | .mask => .ok (low15 v)
  | .refuse => if v.msb then .error .addressBit15Set else .ok (low15 v)

/-- Every access, fetches included, is to an installed word (R31; log entry 18). -/
def checkInstalled (s : State) (k : Addr) : Except Refusal Unit :=
  if k.toNat < s.cfg.memWords then .ok () else .error .nonexistentMemory

/-- `MemRead(k, 1)` (R8, R31, R32). -/
def readWord (s : State) (k : Addr) : Except Refusal Word := do
  checkInstalled s k
  return s.load k

/-- `MemWrite(k, 1, v)` (R8, R31, R32). -/
def writeWord (s : State) (k : Addr) (v : Word) : Except Refusal State := do
  checkInstalled s k
  return s.store k v

/-- `k + n` in the integers, refused above 32767 (R15; log entry 9). -/
def advance (k : Addr) (n : Nat) : Except Refusal Addr :=
  if k.toNat + n ≤ 32767 then .ok (k + BitVec.ofNat 15 n) else .error .pOutOfRange

/-- The outcome of a computation that can only complete or be refused (R140: none of the 20 faults). -/
def outcome : Except Refusal State → Host.Outcome State Fault Refusal
  | .ok t => .next t
  | .error r => .refused r

end Sys2Proof.Machine
end

