-- ==== Sys2Proof/Machine/Operands.lean ====
section
/-!
DEFINITION. The stack addressing modes (spec/40_stack_addressing.md R70 to R76), shared by the 15 stack instructions.
-/

namespace Sys2Proof.Machine

/-- What `StackOperand` of R75 returns, with the state it leaves. -/
structure StackAccess where
  /-- The stack pointer address. -/
  spa : Addr
  /-- The stack element address. -/
  sea : Addr
  /-- The state after the PUSH write-back, before the element access. -/
  st : State
  /-- The pointer value that POP restores after the element access; none in the other modes. -/
  post : Option Word
  deriving DecidableEq, Repr

/-- The word SEA is taken from, given the stack pointer `sp` and X (R71 to R74; R72: the 16-bit wrap-around sum). -/
def elementPointer (am : Mode) (sp x : Word) : Word :=
  match am with
  | .direct => sp
  | .indexed => sp + x
  | .pop => sp
  | .push => sp - 1

/-- The stack pointer an instruction leaves (R71 to R74). -/
def pointerLeft (am : Mode) (sp : Word) : Word :=
  match am with
  | .direct => sp
  | .indexed => sp
  | .pop => sp + 1
  | .push => sp - 1

/-- The address checks and the PUSH write-back of R75, once SPA and the stack pointer are known. The write-backs are to
SPA, which was read and so is installed. -/
def accessAt (am : Mode) (spa : Addr) (sp : Word) (s : State) : Except Refusal StackAccess := do
  let sea ← addr15 s.cfg (elementPointer am sp s.x)
  match am with
  | .direct => return { spa, sea, st := s, post := none }
  | .indexed => return { spa, sea, st := s, post := none }
  | .pop =>
    let _ ← addr15 s.cfg (pointerLeft .pop sp)
    return { spa, sea, st := s, post := some (pointerLeft .pop sp) }
  | .push => return { spa, sea, st := s.store spa (pointerLeft .push sp), post := none }

/-- `StackOperand(loc, AM)` of R75, with `loc` = P. The second word `w2`, which stands at `loc + 1`, is the
instruction's operand; the fetch has read it there. -/
def stackOperand (am : Mode) (w2 : Word) (s : State) : Except Refusal StackAccess := do
  let _ ← advance s.p 1
  let spa ← addr15 s.cfg w2
  let sp ← readWord s spa
  accessAt am spa sp s

/-- `post` of R75: the POP write-back, step 7 of R35. -/
def StackAccess.restore (op : StackAccess) (s : State) : State :=
  match op.post with
  | none => s
  | some v => s.store op.spa v

/-- The operand and the element word read at SEA (R34, R35 step 5). -/
def readElement (am : Mode) (w2 : Word) (s : State) : Except Refusal (StackAccess × Word) := do
  let op ← stackOperand am w2 s
  let m ← readWord op.st op.sea
  return (op, m)

/-- The stack pointer that the second word `w2` names, as memory holds it (R70). -/
def State.pointerWord (s : State) (w2 : Word) : Word := s.load (low15 w2)

/-- The stack element address that a stack instruction with mode `am` and second word `w2` computes (R71 to R74). -/
def State.elementAddr (s : State) (am : Mode) (w2 : Word) : Addr :=
  low15 (elementPointer am (s.pointerWord w2) s.x)

/-- The state an element access sees: the PUSH write-back comes before it (R35 step 4). -/
def State.pushed (s : State) (am : Mode) (w2 : Word) : State :=
  match am with
  | .push => s.store (low15 w2) (s.pointerWord w2 - 1)
  | _ => s

/-- The stack element such an instruction reads (R35 step 5). -/
def State.element (s : State) (am : Mode) (w2 : Word) : Word :=
  (s.pushed am w2).load (s.elementAddr am w2)

/-- `t` with the POP write-back, which uses the pointer that `s` held (R35 step 7). -/
def State.popped (s t : State) (am : Mode) (w2 : Word) : State :=
  match am with
  | .pop => t.store (low15 w2) (s.pointerWord w2 + 1)
  | _ => t

/-- A word that `addr15` admits as an address (R76). -/
abbrev State.admits (s : State) (v : Word) : Prop := s.cfg.bit15 = .mask ∨ v.msb = false

/-- An installed word address (R31). -/
abbrev State.installed (s : State) (k : Addr) : Prop := k.toNat < s.cfg.memWords

/-- The conditions under which `StackOperand` is not refused (R75): the second word is not beyond the address space, SPA is
an admitted address of an installed word, and SEA and the pointer POP restores are admitted addresses. -/
abbrev State.stackReady (s : State) (am : Mode) (w2 : Word) : Prop :=
  s.p.toNat + 1 ≤ 32767 ∧ s.admits w2 ∧ s.installed (low15 w2) ∧
    s.admits (elementPointer am (s.pointerWord w2) s.x) ∧
    (am = .pop → s.admits (s.pointerWord w2 + 1))

/-- `stackReady`, and the element is an installed word (R31): the conditions of an instruction that accesses it. -/
abbrev State.elementReady (s : State) (am : Mode) (w2 : Word) : Prop :=
  s.stackReady am w2 ∧ s.installed (s.elementAddr am w2)

end Sys2Proof.Machine
end

