-- ==== Sys2Proof/Machine/ArithLogic.lean ====
section
/-!
DEFINITION. ADDS, SUBS, ANDS, IORS, XORS (spec/41_stack_arith_logic.md R80 to R84).
-/

namespace Sys2Proof.Machine

/-- The shape of the five: `A <- f A M`, OV raised when `overflows A M`, P <- loc + 2. -/
def combineWithA (f : Word → Word → Word) (overflows : Word → Word → Bool) (am : Mode) (w2 : Word) (s : State) :
    Except Refusal State := do
  let (op, m) ← readElement am w2 s
  let next ← advance s.p 2
  return (op.restore ((op.st.setA (f s.a m)).raiseOv (overflows s.a m))).setP next

/-- ADDS (R80). -/
def execAdds (am : Mode) (w2 : Word) (s : State) : Host.Outcome State Fault Refusal :=
  outcome (combineWithA (fun a m => a + m) addOverflows am w2 s)

/-- SUBS (R81). -/
def execSubs (am : Mode) (w2 : Word) (s : State) : Host.Outcome State Fault Refusal :=
  outcome (combineWithA (fun a m => a - m) subOverflows am w2 s)

/-- ANDS (R82). -/
def execAnds (am : Mode) (w2 : Word) (s : State) : Host.Outcome State Fault Refusal :=
  outcome (combineWithA (fun a m => a &&& m) neverOverflows am w2 s)

/-- IORS (R83). -/
def execIors (am : Mode) (w2 : Word) (s : State) : Host.Outcome State Fault Refusal :=
  outcome (combineWithA (fun a m => a ||| m) neverOverflows am w2 s)

/-- XORS (R84). -/
def execXors (am : Mode) (w2 : Word) (s : State) : Host.Outcome State Fault Refusal :=
  outcome (combineWithA (fun a m => a ^^^ m) neverOverflows am w2 s)

end Sys2Proof.Machine
end

