-- ==== Sys2Proof/Machine/DataTransfer.lean ====
section
/-!
DEFINITION. EMAS, LDAS, LDXS, STAS, STXS (spec/42_stack_data_transfer.md R90 to R94).
-/

namespace Sys2Proof.Machine

/-- The shape of the stores: `v` to the element, which is not read (R34), then `post`, P <- loc + 2. -/
def storeElement (v : Word) (am : Mode) (w2 : Word) (s : State) : Except Refusal State := do
  let op ← stackOperand am w2 s
  let t ← writeWord op.st op.sea v
  let next ← advance s.p 2
  return (op.restore t).setP next

/-- EMAS (R90): the read comes before the write, which stores the A from before the instruction. -/
def execEmas (am : Mode) (w2 : Word) (s : State) : Host.Outcome State Fault Refusal :=
  outcome do
    let (op, m) ← readElement am w2 s
    let t ← writeWord op.st op.sea s.a
    let next ← advance s.p 2
    return (op.restore (t.setA m)).setP next

/-- LDAS (R91). -/
def execLdas (am : Mode) (w2 : Word) (s : State) : Host.Outcome State Fault Refusal :=
  outcome do
    let (op, m) ← readElement am w2 s
    let next ← advance s.p 2
    return (op.restore (op.st.setA m)).setP next

/-- LDXS (R92): in indexed mode the address is formed from the X held before. -/
def execLdxs (am : Mode) (w2 : Word) (s : State) : Host.Outcome State Fault Refusal :=
  outcome do
    let (op, m) ← readElement am w2 s
    let next ← advance s.p 2
    return (op.restore (op.st.setX m)).setP next

/-- STAS (R93). -/
def execStas (am : Mode) (w2 : Word) (s : State) : Host.Outcome State Fault Refusal :=
  outcome (storeElement s.a am w2 s)

/-- STXS (R94). -/
def execStxs (am : Mode) (w2 : Word) (s : State) : Host.Outcome State Fault Refusal :=
  outcome (storeElement s.x am w2 s)

end Sys2Proof.Machine
end

