-- ==== Sys2Proof/Machine/Fetch.lean ====
section
/-!
DEFINITION. Fetching an instruction's words (spec/20_memory.md R32, R35, R41; spec/45_register_change.md R126, R131).
-/

namespace Sys2Proof.Machine

/-- The refusal that a word which is no instruction of the 20 meets (R59, R131; log entry 14). `decode` itself never answers
`truncated`, which belongs to lists of words: the fetch reads a missing second word as R15's refusal. -/
def refusalOfDecode : DecodeError → Refusal
  | .undefinedStackOpcode => .undefinedStackOpcode
  | .notExtendedInstruction => .notExtendedInstruction
  | .truncated => .pOutOfRange

/-- The decoder's answer as a fetch's. -/
def decodeFetched (w1 w2 : Word) : Except Refusal Instr :=
  match decode w1 w2 with
  | .ok i => .ok i
  | .error e => .error (refusalOfDecode e)

/-- The instruction whose first word is `w1`, executed as though it occupied `loc`: its second word, if it has one, is read
at `loc + 1` (R131). -/
def instrAt (w1 : Word) (loc : Addr) (s : State) : Except Refusal Instr :=
  if hasSecondWord w1 then do
    let k ← advance loc 1
    let w2 ← readWord s k
    decodeFetched w1 w2
  else decodeFetched w1 0

/-- The instruction at P, both of its words read before any data access (R35, R130). -/
def fetch (s : State) : Except Refusal Instr := do
  let w1 ← readWord s s.p
  instrAt w1 s.p s

end Sys2Proof.Machine
end

