-- ==== Sys2Proof/Machine/ProgramTransfer.lean ====
section
/-!
DEFINITION. CMSS, IMSS, JMPS, JSTS (spec/43_stack_program_transfer.md R100 to R104).
-/

namespace Sys2Proof.Machine

/-- How far CMSS moves P past `loc` (R100, R104): equal a two-word skip, less the next instruction, greater a one-word
skip. -/
def compareAdvance (c : Config) (a m : Word) : Nat :=
  if a = m then 4 else if lessThan c a m then 2 else 3

/-- How far IMSS moves P past `loc` (R101, R104): a one-word skip on a zero result. -/
def incrementAdvance (r : Word) : Nat := if r = 0 then 3 else 2

/-- CMSS (R100). -/
def execCmss (am : Mode) (w2 : Word) (s : State) : Host.Outcome State Fault Refusal :=
  outcome do
    let (op, m) ← readElement am w2 s
    let next ← advance s.p (compareAdvance s.cfg s.a m)
    return (op.restore op.st).setP next

/-- IMSS (R101). -/
def execImss (am : Mode) (w2 : Word) (s : State) : Host.Outcome State Fault Refusal :=
  outcome do
    let (op, m) ← readElement am w2 s
    let t ← writeWord op.st op.sea (m + 1)
    let next ← advance s.p (incrementAdvance (m + 1))
    return (op.restore (t.raiseOv (incOverflows m))).setP next

/-- JMPS (R102): no element access; the target is SEA in every mode (spec/90_conflicts.md C8). -/
def execJmps (am : Mode) (w2 : Word) (s : State) : Host.Outcome State Fault Refusal :=
  outcome do
    let op ← stackOperand am w2 s
    return (op.restore op.st).setP op.sea

/-- JSTS (R103): the return address `loc + 2` to the element, P <- SEA + 1. -/
def execJsts (am : Mode) (w2 : Word) (s : State) : Host.Outcome State Fault Refusal :=
  outcome do
    let op ← stackOperand am w2 s
    let back ← advance s.p 2
    let entry ← advance op.sea 1
    let t ← writeWord op.st op.sea (zext16 back)
    return (op.restore t).setP entry

end Sys2Proof.Machine
end

