-- ==== Sys2Proof/Machine/RegisterChange.lean ====
section
/-!
DEFINITION. BCA, BCX, BSA, BSX (spec/45_register_change.md R120 to R123). EIX stands in Machine/Execute.lean.
-/

namespace Sys2Proof.Machine

/-- The shape of the four: `t` is the state with the result, P <- loc + 1. -/
def stepOverOneWord (s t : State) : Host.Outcome State Fault Refusal :=
  outcome do
    let next ← advance s.p 1
    return t.setP next

/-- BCA (R120): `A <- A & (~X)`. -/
def execBca (s : State) : Host.Outcome State Fault Refusal :=
  stepOverOneWord s (s.setA (s.a &&& ~~~s.x))

/-- BCX (R121): `X <- A & (~X)`. -/
def execBcx (s : State) : Host.Outcome State Fault Refusal :=
  stepOverOneWord s (s.setX (s.a &&& ~~~s.x))

/-- BSA (R122): `A <- A | X`. -/
def execBsa (s : State) : Host.Outcome State Fault Refusal :=
  stepOverOneWord s (s.setA (s.a ||| s.x))

/-- BSX (R123): `X <- A | X`. -/
def execBsx (s : State) : Host.Outcome State Fault Refusal :=
  stepOverOneWord s (s.setX (s.a ||| s.x))

end Sys2Proof.Machine
end

