-- ==== Sys2Proof/Machine/StackControl.lean ====
section
/-!
DEFINITION. SLAS (spec/44_stack_control.md R110).
-/

namespace Sys2Proof.Machine

/-- Whether SLAS is admitted in mode `am` (R110, `SLAS_NONDIRECT`; log entry 7). -/
def checkSlasMode (c : Config) (am : Mode) : Except Refusal Unit :=
  if am ≠ .direct ∧ c.slasNondirect = .refuse then .error .slasNondirect else .ok ()

/-- SLAS (R110): A <- zext_16(SEA), with no element access. -/
def execSlas (am : Mode) (w2 : Word) (s : State) : Host.Outcome State Fault Refusal :=
  outcome do
    checkSlasMode s.cfg am
    let op ← stackOperand am w2 s
    let next ← advance s.p 2
    return (op.restore (op.st.setA (zext16 op.sea))).setP next

end Sys2Proof.Machine
end

