-- ==== Sys2Proof/Machine/Execute.lean ====
section
/-!
DEFINITION. EIX (spec/45_register_change.md R125 to R129).
-/

namespace Sys2Proof.Machine

/-- `Exec` with `via_eix` (R131): the target's own meaning, but an EIX is refused (R129; log entry 15). The state's P is the as-if
location `loc` = E + 1. -/
def execTarget (i : Instr) (s : State) : Host.Outcome State Fault Refusal :=
  match i with
  | .ands am w2 => execAnds am w2 s
  | .adds am w2 => execAdds am w2 s
  | .subs am w2 => execSubs am w2 s
  | .stas am w2 => execStas am w2 s
  | .iors am w2 => execIors am w2 s
  | .xors am w2 => execXors am w2 s
  | .ldas am w2 => execLdas am w2 s
  | .emas am w2 => execEmas am w2 s
  | .slas am w2 => execSlas am w2 s
  | .cmss am w2 => execCmss am w2 s
  | .imss am w2 => execImss am w2 s
  | .ldxs am w2 => execLdxs am w2 s
  | .stxs am w2 => execStxs am w2 s
  | .jmps am w2 => execJmps am w2 s
  | .jsts am w2 => execJsts am w2 s
  | .eix => .refused .eixNested
  | .bsx => execBsx s
  | .bsa => execBsa s
  | .bcx => execBcx s
  | .bca => execBca s

/-- The word EIX at P = E executes, and its as-if location E + 1 (R125). The word at E + 1 is not read. -/
def eixWord (s : State) : Except Refusal (Word × Addr) := do
  let loc ← advance s.p 1
  let k ← addr15 s.cfg s.x
  let w ← readWord s k
  return (w, loc)

/-- The instruction EIX executes, its second word taken from E + 2 (R126), and its as-if location. -/
def eixTarget (s : State) : Except Refusal (Instr × Addr) := do
  let (w, loc) ← eixWord s
  let i ← instrAt w loc s
  return (i, loc)

/-- EIX (R125): itself it changes nothing; the target runs "as though it occupied the location following the EIX". -/
def execEix (s : State) : Host.Outcome State Fault Refusal :=
  match eixTarget s with
  | .ok (i, loc) => execTarget i (s.setP loc)
  | .error r => .refused r

end Sys2Proof.Machine
end

