-- ==== Sys2Proof/Machine/Dispatch.lean ====
section
/-!
DEFINITION. The dispatch: one arm per constructor of Instr.
-/

namespace Sys2Proof.Machine

def exec (i : Instr) (s : State) : Host.Outcome State Fault Refusal :=
  match i with
  | .ands am spa => Sys2Proof.Machine.execAnds am spa s
  | .adds am spa => Sys2Proof.Machine.execAdds am spa s
  | .subs am spa => Sys2Proof.Machine.execSubs am spa s
  | .stas am spa => Sys2Proof.Machine.execStas am spa s
  | .iors am spa => Sys2Proof.Machine.execIors am spa s
  | .xors am spa => Sys2Proof.Machine.execXors am spa s
  | .ldas am spa => Sys2Proof.Machine.execLdas am spa s
  | .emas am spa => Sys2Proof.Machine.execEmas am spa s
  | .slas am spa => Sys2Proof.Machine.execSlas am spa s
  | .cmss am spa => Sys2Proof.Machine.execCmss am spa s
  | .imss am spa => Sys2Proof.Machine.execImss am spa s
  | .ldxs am spa => Sys2Proof.Machine.execLdxs am spa s
  | .stxs am spa => Sys2Proof.Machine.execStxs am spa s
  | .jmps am spa => Sys2Proof.Machine.execJmps am spa s
  | .jsts am spa => Sys2Proof.Machine.execJsts am spa s
  | .eix => Sys2Proof.Machine.execEix s
  | .bsx => Sys2Proof.Machine.execBsx s
  | .bsa => Sys2Proof.Machine.execBsa s
  | .bcx => Sys2Proof.Machine.execBcx s
  | .bca => Sys2Proof.Machine.execBca s

end Sys2Proof.Machine
end

