-- ==== Sys2Proof/Machine/Step.lean ====
section
/-!
DEFINITION. One processor step (spec/45_register_change.md R130).
-/

namespace Sys2Proof.Machine

/-- R130, with `BaseStep` undefined and no interrupt delivered (R6's defaults; Machine/Platform.lean has both as
arguments). -/
def step (s : State) : Host.Outcome State Fault Refusal :=
  if s.cfg.haltAddr = some s.p then .fault .runEnded
  else
    match fetch s with
    | .ok i => exec i s
    | .error r => .refused r

/-- `s` with the instruction whose bits are the low `nbits` of `w` stored where `step` fetches: its first word at P and its
second (zero where `nbits` has none) at the next address, if there is one. A `HALT_ADDR` at P, under which nothing
would be fetched, is taken away. Log entry 21 says how a program comes to run. -/
def State.withFetchWord (s : State) (nbits w : Nat) : State :=
  let w1 : Word := BitVec.ofNat 16 (w % 2 ^ nbits)
  let w2 : Word := BitVec.ofNat 16 (w % 2 ^ nbits / 65536)
  let t := s.store s.p w1
  let u := if s.p.toNat + 1 ≤ 32767 then t.store (s.p + 1) w2 else t
  if s.cfg.haltAddr = some s.p then { u with cfg := { u.cfg with haltAddr := none } } else u

end Sys2Proof.Machine
end

