-- ==== Sys2Proof/Machine/Accesses.lean ====
section
/-!
DEFINITION. The data accesses of one instruction, after its words have been fetched, in order (spec/20_memory.md R34, R35).
-/

namespace Sys2Proof.Machine

/-- A read or a write of one word (R32). -/
inductive AccessKind where
  | read
  | write
  deriving DecidableEq, Repr

/-- One access of one word (R36). -/
structure Access where
  kind : AccessKind
  addr : Addr
  deriving DecidableEq, Repr

/-- The table of R34: the element accesses at SEA. -/
def elementAccesses : Instr → List AccessKind
  | .ands _ _ => [.read]
  | .adds _ _ => [.read]
  | .subs _ _ => [.read]
  | .stas _ _ => [.write]
  | .iors _ _ => [.read]
  | .xors _ _ => [.read]
  | .ldas _ _ => [.read]
  | .emas _ _ => [.read, .write]
  | .slas _ _ => []
  | .cmss _ _ => [.read]
  | .imss _ _ => [.read, .write]
  | .ldxs _ _ => [.read]
  | .stxs _ _ => [.write]
  | .jmps _ _ => []
  | .jsts _ _ => [.write]
  | .eix => []
  | .bsx => []
  | .bsa => []
  | .bcx => []
  | .bca => []

/-- Steps 3 to 7 of R35 for a stack instruction: the pointer read, the PUSH write-back, the element accesses, the POP
write-back. -/
def stackAccesses (i : Instr) (am : Mode) (op : StackAccess) : List Access :=
  [⟨.read, op.spa⟩] ++ (if am = .push then [⟨.write, op.spa⟩] else []) ++
    (elementAccesses i).map (fun k => ⟨k, op.sea⟩) ++ (if am = .pop then [⟨.write, op.spa⟩] else [])

/-- The data accesses of an instruction itself: EIX reads the word to execute (R34), and what its target accesses is the
target's. -/
def dataAccesses (i : Instr) (s : State) : Except Refusal (List Access) :=
  match i.operands? with
  | some (am, w2) => do
    let op ← stackOperand am w2 s
    return stackAccesses i am op
  | none =>
    match i with
    | .eix => do
      let k ← addr15 s.cfg s.x
      return [⟨.read, k⟩]
    | _ => return []

/-- The addresses written. -/
def writtenAddrs (l : List Access) : List Addr := (l.filter (fun c => c.kind = .write)).map Access.addr

end Sys2Proof.Machine
end

