-- ==== Sys2Proof/Machine/Assembler.lean ====
section
/-!
DEFINITION. The assembler syntax of the 20 instructions and the MACH directive (spec/30_encoding.md R61 to R67). It
generates words and has no effect on the processor (R66).
-/

namespace Sys2Proof.Machine

/-- A part of the operand field: an expression, given by its value (expressions are the base assembler's, R65), or a
character standing as an expression (R62). -/
inductive AsmOperand where
  | value (n : Nat)
  | character (c : Char)
  deriving DecidableEq, Repr

/-- A source line, `[LABEL] OPCODE OPERAND[,AM] [COMMENTS]` (R61, R63, R66), cut into its fields. -/
structure AsmLine where
  label : Option String
  opcode : String
  operands : List AsmOperand
  comments : Option String
  deriving DecidableEq, Repr

/-- What an assembly has reached. -/
structure AsmState where
  /-- The current location counter. -/
  location : Nat
  /-- The MACH flag word (R66). -/
  machFlag : Nat
  /-- The labels and their values, newest first. -/
  symbols : List (String × Nat)
  /-- The words generated and where, in order. -/
  code : List (Nat × Word)
  /-- The locations of the instructions flagged with the error that R66 names. -/
  flagged : List Nat
  deriving DecidableEq, Repr

/-- R67: "Default value of 2 is assumed if no MACH directive is entered." -/
def AsmState.start (origin : Nat) : AsmState :=
  { location := origin, machFlag := 2, symbols := [], code := [], flagged := [] }

/-- The instruction sets that Table 2-1 names (R67). -/
inductive InstrSet where
  /-- The common subset of ALPHA 16 and LSI. -/
  | common
  | alpha16
  | lsi
  /-- The 20 instructions of this spec. -/
  | extendedLsi2
  deriving DecidableEq, Repr

/-- Table 2-1 as the three-bit flag word that R67 reads in it; the common subset is always allowed. -/
def machAllows (flag : Nat) : InstrSet → Bool
  | .common => true
  | .alpha16 => flag.testBit 0
  | .lsi => flag.testBit 1
  | .extendedLsi2 => flag.testBit 2

/-- The second expression of a Class 10 operand field (R62). -/
def modeOfChar (c : Char) : Option Mode :=
  if c = '-' then some .push
  else if c = '+' then some .pop
  else if c = '@' then some .indexed
  else none

/-- The stack mnemonics, Class 10 (R61, R64). -/
def class10Instr (opcode : String) (am : Mode) (spa : Word) : Option Instr :=
  match opcode with
  | "ANDS" => some (.ands am spa)
  | "ADDS" => some (.adds am spa)
  | "SUBS" => some (.subs am spa)
  | "STAS" => some (.stas am spa)
  | "IORS" => some (.iors am spa)
  | "XORS" => some (.xors am spa)
  | "LDAS" => some (.ldas am spa)
  | "EMAS" => some (.emas am spa)
  | "SLAS" => some (.slas am spa)
  | "CMSS" => some (.cmss am spa)
  | "IMSS" => some (.imss am spa)
  | "LDXS" => some (.ldxs am spa)
  | "STXS" => some (.stxs am spa)
  | "JMPS" => some (.jmps am spa)
  | "JSTS" => some (.jsts am spa)
  | _ => none

/-- The register change mnemonics, Class 5 (R63, R64). -/
def class5Instr (opcode : String) : Option Instr :=
  match opcode with
  | "EIX" => some .eix
  | "BSX" => some .bsx
  | "BSA" => some .bsa
  | "BCX" => some .bcx
  | "BCA" => some .bca
  | _ => none

/-- The instruction a line stands for. The first expression of Class 10 "represents a memory word address" (R61), so it is
below 32768; Class 5 takes no operand (R63). -/
def instrOfLine (l : AsmLine) : Option Instr :=
  match l.operands with
  | [] => class5Instr l.opcode
  | [.value n] => if n < 32768 then class10Instr l.opcode .direct (BitVec.ofNat 16 n) else none
  | [.value n, .character c] =>
    match modeOfChar c with
    | some am => if n < 32768 then class10Instr l.opcode am (BitVec.ofNat 16 n) else none
    | none => none
  | _ => none

/-- The label, if present, gets the current location counter: R66 of the MACH directive, PRESUMED of an instruction (log
entry 22). -/
def AsmState.define (st : AsmState) (label : Option String) : AsmState :=
  match label with
  | some name => { st with symbols := (name, st.location) :: st.symbols }
  | none => st

/-- One instruction: its words, and the flag of R66 if MACH does not admit the set; it is assembled correctly either
way. -/
def AsmState.emit (st : AsmState) (i : Instr) : AsmState :=
  { st with
    location := st.location + i.length
    code := st.code ++ (encode i).zipIdx.map (fun (w, k) => (st.location + k, w))
    flagged := if machAllows st.machFlag .extendedLsi2 then st.flagged else st.flagged ++ [st.location] }

/-- One line: a MACH directive (R66), whose value is one of Table 2-1's, or one of the 20 instructions. None: a line that
R61 to R67 do not describe (log entry 22). -/
def assembleLine (st : AsmState) (l : AsmLine) : Option AsmState :=
  if l.opcode = "MACH" then
    match l.operands with
    | [.value n] => if n < 8 then some { st.define l.label with machFlag := n } else none
    | _ => none
  else
    match instrOfLine l with
    | some i => some ((st.define l.label).emit i)
    | none => none

/-- The lines of a program, in order. -/
def assemble : AsmState → List AsmLine → Option AsmState
  | st, [] => some st
  | st, l :: rest =>
    match assembleLine st l with
    | some st' => assemble st' rest
    | none => none

end Sys2Proof.Machine
end

