-- ==== Sys2Proof/Machine/Platform.lean ====
section
/-!
DEFINITION. The two parameters of spec/00_scope.md R6 that are functions: `BaseStep` (spec/45_register_change.md R131) and
`Interrupts` (spec/60_exceptions.md R143). `step` is the machine with both at their defaults.
-/

namespace Sys2Proof.Machine

/-- `BaseStep` (R6): the meaning of a word that is none of the 20, from the state, the word and its as-if location. DESIGN
CHOICE (log entry 24): R6 lists the parameters apart from the state and does not say whether a `BaseStep` may change
them; here the state it gives is any `State`, so it may change `cfg`, `HALT_ADDR` included. -/
abbrev BaseStep := State → Word → Addr → Option State

/-- The default: "undefined everywhere" (R6). -/
def BaseStep.undefined : BaseStep := fun _ _ _ => none

/-- The last case of R131. -/
def execBase (base : BaseStep) (s : State) (w : Word) (loc : Addr) : Host.Outcome State Fault Refusal :=
  match base s w loc with
  | some t => .next t
  | none => .refused .notExtendedInstruction

/-- A word that R59 (b) leaves to `BaseStep`. -/
def isBaseWord (w : Word) : Bool := decide (decode w 0 = .error .notExtendedInstruction)

/-- EIX (R125), whose target may be a base-machine word (R127, R131): that word gets the as-if location E + 1. -/
def eixWith (base : BaseStep) (s : State) : Host.Outcome State Fault Refusal :=
  match eixWord s with
  | .error r => .refused r
  | .ok (w, loc) => if isBaseWord w then execBase base s w loc else execEix s

/-- `Step` of R130 and `Exec` of R131 for any `BaseStep`. -/
def stepWith (base : BaseStep) (s : State) : Host.Outcome State Fault Refusal :=
  if s.cfg.haltAddr = some s.p then .fault .runEnded
  else
    match readWord s s.p with
    | .error r => .refused r
    | .ok w =>
      if isBaseWord w then execBase base s w s.p
      else if w = 0x0218 then eixWith base s
      else step s

/-- `Interrupts` (R6, R143): what the agent does to the state before the k-th step; log entry 23 says where that is not
the spec's. It acts only between steps, so never between an EIX and its target (R128). -/
abbrev Interrupts := Nat → State → State

/-- The default: none delivered (R6). -/
def Interrupts.none : Interrupts := fun _ s => s

/-- `n` steps, the first of them numbered `k`, with the agent acting before each. DESIGN CHOICE (log entry 23): R130 and
R143 place the agent between two steps and do not say whether it acts before the first step of a run, nor, where P is
`HALT_ADDR`, whether it acts before R162's test ends the run. Here it may do both, so it can move P off `HALT_ADDR` and
the run goes on. -/
def runWith (base : BaseStep) (ints : Interrupts) : Nat → Nat → State → Host.Outcome State Fault Refusal
  | 0, _, s => .next s
  | n + 1, k, s =>
    match stepWith base (ints k s) with
    | .next t => runWith base ints n (k + 1) t
    | .fault r => .fault r
    | .refused r => .refused r

end Sys2Proof.Machine
end

