-- ==== Sys2Proof/Safety.lean ====
section
/-!
DEFINITION. The terms in which claims speak of safe states and safe runs.
-/

namespace Sys2Proof.Machine

/-- The states a machine of this spec can be in: the parameters in R6's ranges, memory in canonical form, and no word
listed beyond the installed memory (R31). -/
abbrev State.Inv (s : State) : Prop :=
  s.cfg.wf ∧ s.mem.wf ∧ ∀ c ∈ s.mem, c.1 < s.cfg.memWords

/-- `k` steps, stopping at the first fault or refusal: the host's run, on this machine's own types. -/
def run : Nat → State → Host.Outcome State Fault Refusal
  | 0, s => .next s
  | k + 1, s =>
    match step s with
    | .next t => run k t
    | .fault f => .fault f
    | .refused r => .refused r

/-- A run of `k` steps that no refusal and no end of the run stops. -/
def SafeRun (k : Nat) (s : State) : Prop := ∃ t, run k s = .next t

/-- The state an outcome goes on to, if it does. -/
def nextState? : Host.Outcome State Fault Refusal → Option State
  | .next t => some t
  | .fault _ => none
  | .refused _ => none

/-- The reason an outcome is refused, if it is. -/
def refusal? : Host.Outcome State Fault Refusal → Option Refusal
  | .next _ => none
  | .fault _ => none
  | .refused r => some r

/-- The fault an outcome ends in, if it does. -/
def fault? : Host.Outcome State Fault Refusal → Option Fault
  | .next _ => none
  | .fault f => some f
  | .refused _ => none

end Sys2Proof.Machine
end

