-- ==== Sys2Proof/Certificates/Slice0/Obligations.lean ====
section
/-!
DEFINITION. The statements for the provers. `spec` clauses that rest on a decision of spec/92_eei_decisions.md are named in
each docstring.
-/

open Sys2Proof Sys2Proof.Machine

/-! ## Encoding -/

/-- Decoding the words of any instruction, with every operand at every value, gives it back with the words that follow
(R50 to R54, R57, R58). -/
def Obligations.DecodeOfEncodeIsTheInstruction : Prop :=
  ∀ (i : Instr) (rest : List Word), decodeWords (encode i ++ rest) = .ok (i, rest)

/-- Words that decode are exactly the words the encoder makes of the instruction: no two encodings of one instruction
(R50 to R54, R57, R58). -/
def Obligations.DecodedWordsAreItsEncoding : Prop :=
  ∀ (ws : List Word) (i : Instr) (rest : List Word), decodeWords ws = .ok (i, rest) → ws = encode i ++ rest

/-- R58: "The 20 patterns are pairwise disjoint": no word belongs to two rows of the opcode table. -/
def Obligations.OpcodeRowsAreDisjoint : Prop :=
  ∀ r₁ ∈ opcodeRows, ∀ r₂ ∈ opcodeRows, ∀ w : Word, r₁.covers w = true → r₂.covers w = true → r₁ = r₂

/-- R58: a first word decodes to an instruction of a row exactly when the row's pattern matches it. -/
def Obligations.WordDecodesToTheRowThatCoversIt : Prop :=
  ∀ r ∈ opcodeRows, ∀ w1 w2 : Word, r.covers w1 = true ↔ ∃ i, decode w1 w2 = .ok i ∧ i.row? = some r

/-- R57: each register change instruction has one word and no variable field: that word decodes to it, whatever follows,
and no other first word does. -/
def Obligations.RegisterChangeWordsDecode : Prop :=
  ∀ w1 w2 : Word,
    (decode w1 w2 = .ok .eix ↔ w1 = 0x0218) ∧ (decode w1 w2 = .ok .bsx ↔ w1 = 0x0688) ∧
    (decode w1 w2 = .ok .bsa ↔ w1 = 0x068A) ∧ (decode w1 w2 = .ok .bcx ↔ w1 = 0x06C8) ∧
    (decode w1 w2 = .ok .bca ↔ w1 = 0x06CA)

/-- R53: each of the 15 skeletons of R52 with each of the four AM codes is the instruction in that mode. -/
def Obligations.StackWordsDecodeInEveryMode : Prop :=
  ∀ (am : Mode) (w2 : Word),
    let code : Word := match am with | .direct => 0 | .indexed => 1 | .pop => 2 | .push => 3
    decode (0x1418 + code) w2 = .ok (.ands am w2) ∧ decode (0x1438 + code) w2 = .ok (.adds am w2) ∧
    decode (0x1458 + code) w2 = .ok (.subs am w2) ∧ decode (0x1478 + code) w2 = .ok (.stas am w2) ∧
    decode (0x1498 + code) w2 = .ok (.iors am w2) ∧ decode (0x14B8 + code) w2 = .ok (.xors am w2) ∧
    decode (0x14D8 + code) w2 = .ok (.ldas am w2) ∧ decode (0x14F8 + code) w2 = .ok (.emas am w2) ∧
    decode (0x1618 + code) w2 = .ok (.slas am w2) ∧ decode (0x1658 + code) w2 = .ok (.cmss am w2) ∧
    decode (0x1678 + code) w2 = .ok (.imss am w2) ∧ decode (0x1698 + code) w2 = .ok (.ldxs am w2) ∧
    decode (0x16B8 + code) w2 = .ok (.stxs am w2) ∧ decode (0x16D8 + code) w2 = .ok (.jmps am w2) ∧
    decode (0x16F8 + code) w2 = .ok (.jsts am w2)

/-! ## The step -/

/-- R130, R131, R35: when the word at P, with the word at P + 1 if it has two, decodes to `i`, the step is `exec i`. -/
def Obligations.StepIsExecOfTheDecodedInstruction : Prop :=
  ∀ (s : State) (i : Instr), s.cfg.haltAddr ≠ some s.p → s.installed s.p →
    (if hasSecondWord (s.load s.p) then
      s.p.toNat + 1 ≤ 32767 ∧ s.installed (s.p + 1) ∧ decode (s.load s.p) (s.load (s.p + 1)) = .ok i
     else decode (s.load s.p) 0 = .ok i) →
    step s = exec i s

/-- The same from the encoder's side: a machine whose words at P are the encoding of `i` executes `i` (R51, R52, R130). -/
def Obligations.StepRunsTheEncodedInstruction : Prop :=
  ∀ (s : State) (i : Instr), s.cfg.haltAddr ≠ some s.p →
    (∀ (k : Nat) (w : Word), (encode i)[k]? = some w →
      s.p.toNat + k ≤ 32767 ∧ s.p.toNat + k < s.cfg.memWords ∧ s.mem.read (s.p.toNat + k) = w) →
    step s = exec i s

/-- R162, R140: a step faults exactly at `HALT_ADDR`, with the fault that the run has ended; no instruction faults
(decisions D19, D22). -/
def Obligations.StepFaultsExactlyAtHaltAddr : Prop :=
  ∀ (s : State) (f : Fault), step s = .fault f ↔ f = .runEnded ∧ s.cfg.haltAddr = some s.p

/-- R59: a word that no row of the opcode table covers is refused, by one name if it has the stack format and by the other
if not; never a no-op, never an alias (decisions D1, D24). -/
def Obligations.UncoveredWordsAreRefusedByName : Prop :=
  ∀ s : State, s.cfg.haltAddr ≠ some s.p → s.installed s.p →
    (∀ r ∈ opcodeRows, r.covers (s.load s.p) = false) →
    step s = .refused
      (if s.load s.p &&& 0xFC1C = 0x1418 then .undefinedStackOpcode else .notExtendedInstruction)

/-- Each refusal has its cause: bit 15 only under `BIT15_POLICY` = refuse (R76), nonexistent memory only where not all
32768 words are installed (R31), SLAS's only under its parameter (R110), and no instruction is unmodelled. -/
def Obligations.StepRefusalsHaveTheirCause : Prop :=
  ∀ (s : State) (r : Refusal), step s = .refused r →
    match r with
    | .notModelled _ => False
    | .addressBit15Set => s.cfg.bit15 = .refuse
    | .nonexistentMemory => s.cfg.memWords ≤ 32767
    | .slasNondirect => s.cfg.slasNondirect = .refuse
    | .pOutOfRange => True
    | .undefinedStackOpcode => True
    | .notExtendedInstruction => True
    | .eixNested => True

/-! ## What each instruction does, where it completes -/

/-- R80: A plus the element, OV raised when the exact signed sum is out of range and otherwise unchanged (decisions D6, D7),
P <- loc + 2, in every mode. -/
def Obligations.AddsAddsElementToA : Prop :=
  ∀ (am : Mode) (w2 : Word) (s : State), s.elementReady am w2 → s.p.toNat + 2 ≤ 32767 →
    exec (.adds am w2) s = .next (s.popped { s.pushed am w2 with
      a := s.a + s.element am w2
      ov := s.ov || decide (s.a.toInt + (s.element am w2).toInt < -32768 ∨ 32767 < s.a.toInt + (s.element am w2).toInt)
      p := s.p + 2 } am w2)

/-- R81: A minus the element, OV raised when the exact signed difference is out of range and otherwise unchanged (decisions
D6, D7; U8), P <- loc + 2, in every mode. -/
def Obligations.SubsSubtractsElementFromA : Prop :=
  ∀ (am : Mode) (w2 : Word) (s : State), s.elementReady am w2 → s.p.toNat + 2 ≤ 32767 →
    exec (.subs am w2) s = .next (s.popped { s.pushed am w2 with
      a := s.a - s.element am w2
      ov := s.ov || decide (s.a.toInt - (s.element am w2).toInt < -32768 ∨ 32767 < s.a.toInt - (s.element am w2).toInt)
      p := s.p + 2 } am w2)

/-- R82, R83, R84: A and, or, exclusive or the element; OV unchanged (decision D6); P <- loc + 2. -/
def Obligations.LogicalStackInstructionsCombineElementWithA : Prop :=
  ∀ (am : Mode) (w2 : Word) (s : State), s.elementReady am w2 → s.p.toNat + 2 ≤ 32767 →
    exec (.ands am w2) s = .next (s.popped { s.pushed am w2 with a := s.a &&& s.element am w2, p := s.p + 2 } am w2) ∧
    exec (.iors am w2) s = .next (s.popped { s.pushed am w2 with a := s.a ||| s.element am w2, p := s.p + 2 } am w2) ∧
    exec (.xors am w2) s = .next (s.popped { s.pushed am w2 with a := s.a ^^^ s.element am w2, p := s.p + 2 } am w2)

/-- R90: the element gets the A from before and A gets the element from before; the POP write-back comes last (decision
D10); P <- loc + 2. -/
def Obligations.EmasExchangesElementAndA : Prop :=
  ∀ (am : Mode) (w2 : Word) (s : State), s.elementReady am w2 → s.p.toNat + 2 ≤ 32767 →
    exec (.emas am w2) s = .next (s.popped { (s.pushed am w2).store (s.elementAddr am w2) s.a with
      a := s.element am w2, p := s.p + 2 } am w2)

/-- R91, as its pseudocode: with `StackOperand` answering `op` and the element word readable, A <- the word at SEA, then
`post`, P <- loc + 2; its first word is 0x14D8 + AM, its second SPA. -/
def Obligations.LdasLoadsElementIntoA : Prop :=
  ∀ (am : Mode) (w2 : Word) (s : State) (op : StackAccess), stackOperand am w2 s = .ok op → s.installed op.sea →
    s.p.toNat + 2 ≤ 32767 →
    exec (.ldas am w2) s = .next (op.restore { op.st with a := op.st.mem.read op.sea.toNat, p := s.p + 2 }) ∧
    encode (.ldas am w2) = [0x14D8 + am.code.setWidth 16, w2]

/-- R92, as its pseudocode: X <- the word at SEA, then `post`, P <- loc + 2; in indexed mode SEA is formed from the X held
before; its first word is 0x1698 + AM, its second SPA. -/
def Obligations.LdxsLoadsElementIntoX : Prop :=
  ∀ (am : Mode) (w2 : Word) (s : State) (op : StackAccess), stackOperand am w2 s = .ok op → s.installed op.sea →
    s.p.toNat + 2 ≤ 32767 →
    exec (.ldxs am w2) s = .next (op.restore { op.st with x := op.st.mem.read op.sea.toNat, p := s.p + 2 }) ∧
    (am = .indexed → op.sea = low15 (s.mem.read (low15 w2).toNat + s.x)) ∧
    encode (.ldxs am w2) = [0x1698 + am.code.setWidth 16, w2]

/-- LDAS and LDXS in each mode, from the state alone (R71 to R74, R91, R92; decisions D3, D4, D5, D10). -/
def Obligations.LoadsCompleteInEveryMode : Prop :=
  ∀ (am : Mode) (w2 : Word) (s : State), s.elementReady am w2 → s.p.toNat + 2 ≤ 32767 →
    exec (.ldas am w2) s = .next (s.popped { s.pushed am w2 with a := s.element am w2, p := s.p + 2 } am w2) ∧
    exec (.ldxs am w2) s = .next (s.popped { s.pushed am w2 with x := s.element am w2, p := s.p + 2 } am w2)

/-- R93, R94: the element gets A, or X; the POP write-back comes last (decision D10); P <- loc + 2. -/
def Obligations.StoresWriteRegisterToElement : Prop :=
  ∀ (am : Mode) (w2 : Word) (s : State), s.elementReady am w2 → s.p.toNat + 2 ≤ 32767 →
    exec (.stas am w2) s = .next (s.popped { (s.pushed am w2).store (s.elementAddr am w2) s.a with p := s.p + 2 } am w2) ∧
    exec (.stxs am w2) s = .next (s.popped { (s.pushed am w2).store (s.elementAddr am w2) s.x with p := s.p + 2 } am w2)

/-- R100, R104: equal a two-word skip, less the next instruction, greater a one-word skip, under `CMSS_SIGNED` (decision
D8); nothing but P and the pointer changes. -/
def Obligations.CmssSkipsByTheComparison : Prop :=
  ∀ (am : Mode) (w2 : Word) (s : State) (n : Nat), s.elementReady am w2 →
    n = (if s.a = s.element am w2 then 4
      else if (if s.cfg.cmssSigned then s.a.toInt < (s.element am w2).toInt else s.a.toNat < (s.element am w2).toNat)
      then 2 else 3) →
    s.p.toNat + n ≤ 32767 →
    exec (.cmss am w2) s = .next (s.popped { s.pushed am w2 with p := s.p + BitVec.ofNat 15 n } am w2)

/-- R100: where the sign bits of A and the element agree, CMSS does the same under both values of `CMSS_SIGNED`. -/
def Obligations.CmssOrderAgreesOnEqualSigns : Prop :=
  ∀ (am : Mode) (w2 : Word) (s t : State), s.cfg.cmssSigned = true → s.elementReady am w2 →
    s.a.msb = (s.element am w2).msb →
    (exec (.cmss am w2) s = .next t ↔
      exec (.cmss am w2) { s with cfg := { s.cfg with cmssSigned := false } } =
        .next { t with cfg := { t.cfg with cmssSigned := false } } ∧ t.cfg = s.cfg)

/-- R101, R104: the element plus one, a one-word skip when that is zero, OV raised when the element was 0x7FFF and otherwise
unchanged (decisions D6, D7); the POP write-back comes last (decision D10). -/
def Obligations.ImssIncrementsAndSkipsOnZero : Prop :=
  ∀ (am : Mode) (w2 : Word) (s : State) (n : Nat), s.elementReady am w2 →
    n = (if s.element am w2 = 0xFFFF then 3 else 2) → s.p.toNat + n ≤ 32767 →
    exec (.imss am w2) s = .next (s.popped { (s.pushed am w2).store (s.elementAddr am w2) (s.element am w2 + 1) with
      ov := s.ov || decide (s.element am w2 = 0x7FFF)
      p := s.p + BitVec.ofNat 15 n } am w2)

/-- R102, as its pseudocode: `post`, then P <- SEA; no element access, no other change; its first word is 0x16D8 + AM, its
second SPA. -/
def Obligations.JmpsLoadsPWithElementAddress : Prop :=
  ∀ (am : Mode) (w2 : Word) (s : State) (op : StackAccess), stackOperand am w2 s = .ok op →
    exec (.jmps am w2) s = .next { op.restore op.st with p := op.sea } ∧
    encode (.jmps am w2) = [0x16D8 + am.code.setWidth 16, w2]

/-- JMPS's target and SLAS's value in each mode, from the state alone: the pointer, the pointer plus X, the old pointer, the
decremented pointer (R71 to R74, R102, R110; decisions D4, D5, D9); neither needs the element to be installed. -/
def Obligations.JmpsAndSlasUseTheModesElementAddress : Prop :=
  ∀ (am : Mode) (w2 : Word) (s : State) (sea : Addr), s.stackReady am w2 →
    sea = low15 (match am with
      | .direct => s.mem.read (low15 w2).toNat
      | .indexed => s.mem.read (low15 w2).toNat + s.x
      | .pop => s.mem.read (low15 w2).toNat
      | .push => s.mem.read (low15 w2).toNat - 1) →
    exec (.jmps am w2) s = .next (s.popped { s.pushed am w2 with p := sea } am w2) ∧
    (s.p.toNat + 2 ≤ 32767 → (am = .direct ∨ s.cfg.slasNondirect = .sea) →
      exec (.slas am w2) s = .next (s.popped { s.pushed am w2 with a := sea.setWidth 16, p := s.p + 2 } am w2))

/-- R103: the element gets the return address `loc + 2` with bit 15 = 0 (decision D12), P <- SEA + 1. -/
def Obligations.JstsStoresReturnAddressAndJumps : Prop :=
  ∀ (am : Mode) (w2 : Word) (s : State), s.elementReady am w2 → s.p.toNat + 2 ≤ 32767 →
    (s.elementAddr am w2).toNat + 1 ≤ 32767 →
    exec (.jsts am w2) s = .next (s.popped
      { (s.pushed am w2).store (s.elementAddr am w2) (BitVec.ofNat 16 (s.p.toNat + 2)) with
        p := s.elementAddr am w2 + 1 } am w2)

/-- R120, R121: `A & (~X)` to A, or to X; nothing else changes but P (OV: decision D6). -/
def Obligations.BitClearResults : Prop :=
  ∀ s : State, s.p.toNat + 1 ≤ 32767 →
    exec .bca s = .next { s with a := s.a &&& ~~~s.x, p := s.p + 1 } ∧
    exec .bcx s = .next { s with x := s.a &&& ~~~s.x, p := s.p + 1 }

/-- R122, R123: `A | X` to A, or to X; nothing else changes but P (OV: decision D6). -/
def Obligations.BitSetResults : Prop :=
  ∀ s : State, s.p.toNat + 1 ≤ 32767 →
    exec .bsa s = .next { s with a := s.a ||| s.x, p := s.p + 1 } ∧
    exec .bsx s = .next { s with x := s.a ||| s.x, p := s.p + 1 }

/-! ## EIX -/

/-- R126: the second word of a two-word target is the word at EIX + 2, whatever follows the target's first word, and a
target that leaves P at `loc + 2` leaves it at EIX + 3. -/
def Obligations.EixTakesSecondWordFromEixPlusTwo : Prop :=
  ∀ (s : State) (i : Instr), s.p.toNat + 2 ≤ 32767 → s.admits s.x → s.installed (low15 s.x) →
    hasSecondWord (s.load (low15 s.x)) = true → s.installed (s.p + 2) →
    decode (s.load (low15 s.x)) (s.load (s.p + 2)) = .ok i →
    exec .eix s = exec i { s with p := s.p + 1 } ∧
    ∀ t, exec .eix s = .next t →
      (∃ am w2, i ∈ [Instr.ands am w2, .adds am w2, .subs am w2, .stas am w2, .iors am w2, .xors am w2, .ldas am w2,
        .emas am w2, .slas am w2, .ldxs am w2, .stxs am w2]) →
      t.p.toNat = s.p.toNat + 3

/-- R125 (a): EIX completes with each one-word target; the word at EIX + 1 is skipped, so P <- EIX + 2. -/
def Obligations.EixOfOneWordTargetsCompletes : Prop :=
  ∀ s : State, s.p.toNat + 2 ≤ 32767 → s.admits s.x → s.installed (low15 s.x) →
    (s.load (low15 s.x) = 0x06CA → exec .eix s = .next { s with a := s.a &&& ~~~s.x, p := s.p + 2 }) ∧
    (s.load (low15 s.x) = 0x06C8 → exec .eix s = .next { s with x := s.a &&& ~~~s.x, p := s.p + 2 }) ∧
    (s.load (low15 s.x) = 0x068A → exec .eix s = .next { s with a := s.a ||| s.x, p := s.p + 2 }) ∧
    (s.load (low15 s.x) = 0x0688 → exec .eix s = .next { s with x := s.a ||| s.x, p := s.p + 2 })

/-- R127: a target that modifies P does so relative to EIX + 1: CMSS to EIX + 3, 4 or 5, IMSS to EIX + 3 or 4, JSTS stores
EIX + 3, JMPS goes to its absolute target. Each direct mode, with SPA at EIX + 2. -/
def Obligations.EixTargetsModifyPRelativeToEixPlusOne : Prop :=
  ∀ (s : State) (w2 : Word), s.p.toNat + 5 ≤ 32767 → s.admits s.x → s.installed (low15 s.x) →
    s.installed (s.p + 2) → s.load (s.p + 2) = w2 → s.elementReady .direct w2 →
    (s.load (low15 s.x) = 0x1658 → exec .eix s = .next { s with
      p := s.p + (if s.a = s.element .direct w2 then 5
        else if (if s.cfg.cmssSigned then s.a.toInt < (s.element .direct w2).toInt
          else s.a.toNat < (s.element .direct w2).toNat)
        then 3 else 4) }) ∧
    (s.load (low15 s.x) = 0x1678 → exec .eix s = .next
      { s.store (s.elementAddr .direct w2) (s.element .direct w2 + 1) with
        ov := s.ov || decide (s.element .direct w2 = 0x7FFF)
        p := s.p + (if s.element .direct w2 = 0xFFFF then 4 else 3) }) ∧
    (s.load (low15 s.x) = 0x16F8 → (s.elementAddr .direct w2).toNat + 1 ≤ 32767 → exec .eix s = .next
      { s.store (s.elementAddr .direct w2) (BitVec.ofNat 16 (s.p.toNat + 3)) with p := s.elementAddr .direct w2 + 1 }) ∧
    (s.load (low15 s.x) = 0x16D8 → exec .eix s = .next { s with p := s.elementAddr .direct w2 })

/-- EIX itself changes nothing (R125): whatever it leaves, its target leaves, run with P at EIX + 1; and its target is not an
EIX (R129, decision D23). -/
def Obligations.EixLeavesWhatItsTargetLeaves : Prop :=
  ∀ (s t : State), exec .eix s = .next t →
    ∃ i, eixTarget s = .ok (i, s.p + 1) ∧ i ≠ .eix ∧ exec i { s with p := s.p + 1 } = .next t

/-- Where EIX itself is refused: EIX + 1 beyond 32767 (R15, D11), X no admitted address (R76, D3), X not installed (R31,
D15), the executed word an EIX (R129, D23). -/
def Obligations.EixRefusals : Prop :=
  ∀ s : State,
    (32767 < s.p.toNat + 1 → exec .eix s = .refused .pOutOfRange) ∧
    (s.p.toNat + 1 ≤ 32767 → ¬ s.admits s.x → exec .eix s = .refused .addressBit15Set) ∧
    (s.p.toNat + 1 ≤ 32767 → s.admits s.x → ¬ s.installed (low15 s.x) →
      exec .eix s = .refused .nonexistentMemory) ∧
    (s.p.toNat + 1 ≤ 32767 → s.admits s.x → s.installed (low15 s.x) → s.load (low15 s.x) = 0x0218 →
      exec .eix s = .refused .eixNested)

/-! ## Where the stack and register change instructions are refused -/

/-- R75, R76, R31: a stack instruction whose operand is not ready is refused, whichever of the 15 it is (decisions D3, D11,
D15); which name it gets when several conditions hold is not fixed (R145). -/
def Obligations.UnreadyStackOperandIsRefused : Prop :=
  ∀ (i : Instr) (am : Mode) (w2 : Word) (s : State), i.operands? = some (am, w2) → ¬ s.stackReady am w2 →
    ∃ r, exec i s = .refused r

/-- R31, R34: where the element is not installed, the 13 instructions that access it are refused by that name, while JMPS,
which makes no element access, completes (decision D15). -/
def Obligations.UninstalledElementIsRefused : Prop :=
  ∀ (am : Mode) (w2 : Word) (s : State), s.stackReady am w2 → ¬ s.installed (s.elementAddr am w2) →
    s.p.toNat + 2 ≤ 32767 →
    (∀ i ∈ [Instr.ands am w2, .adds am w2, .subs am w2, .stas am w2, .iors am w2, .xors am w2, .ldas am w2, .emas am w2,
      .cmss am w2, .imss am w2, .ldxs am w2, .stxs am w2], exec i s = .refused .nonexistentMemory) ∧
    ((s.elementAddr am w2).toNat + 1 ≤ 32767 → exec (.jsts am w2) s = .refused .nonexistentMemory) ∧
    exec (.jmps am w2) s = .next (s.popped { s.pushed am w2 with p := s.elementAddr am w2 } am w2)

/-- R15: a P beyond 32767 is refused, never wrapped (decision D11): the new P of every instruction in every outcome, and
the fetch of a second word at `loc + 1`, in line and under EIX. JMPS, whose new P is an address, has no such case. -/
def Obligations.PBeyondTopIsRefused : Prop :=
  ∀ (am : Mode) (w2 : Word) (s : State),
    (s.elementReady am w2 → 32767 < s.p.toNat + 2 →
      ∀ i ∈ [Instr.ands am w2, .adds am w2, .subs am w2, .stas am w2, .iors am w2, .xors am w2, .ldas am w2, .emas am w2,
        .cmss am w2, .imss am w2, .ldxs am w2, .stxs am w2, .jsts am w2], exec i s = .refused .pOutOfRange) ∧
    (s.elementReady am w2 → s.elementAddr am w2 = 32767 → exec (.jsts am w2) s = .refused .pOutOfRange) ∧
    (s.elementReady am w2 → s.element am w2 = 0xFFFF → 32767 < s.p.toNat + 3 →
      exec (.imss am w2) s = .refused .pOutOfRange) ∧
    (s.elementReady am w2 → s.a = s.element am w2 → 32767 < s.p.toNat + 4 →
      exec (.cmss am w2) s = .refused .pOutOfRange) ∧
    (s.elementReady am w2 →
      (if s.cfg.cmssSigned then (s.element am w2).toInt < s.a.toInt else (s.element am w2).toNat < s.a.toNat) →
      32767 < s.p.toNat + 3 → exec (.cmss am w2) s = .refused .pOutOfRange) ∧
    (s.stackReady am w2 → (am = .direct ∨ s.cfg.slasNondirect = .sea) → 32767 < s.p.toNat + 2 →
      exec (.slas am w2) s = .refused .pOutOfRange) ∧
    (32767 < s.p.toNat + 1 → ∀ i ∈ [Instr.bca, .bcx, .bsa, .bsx], exec i s = .refused .pOutOfRange) ∧
    (s.cfg.haltAddr ≠ some s.p → s.installed s.p → hasSecondWord (s.load s.p) = true → 32767 < s.p.toNat + 1 →
      step s = .refused .pOutOfRange) ∧
    (s.admits s.x → s.installed (low15 s.x) → 32767 < s.p.toNat + 2 →
      (hasSecondWord (s.load (low15 s.x)) = true ∨ s.load (low15 s.x) ∈ [(0x06CA : Word), 0x06C8, 0x068A, 0x0688]) →
      exec .eix s = .refused .pOutOfRange)

/-- R110: under `SLAS_NONDIRECT` = refuse, SLAS is refused in the indexed, POP and PUSH modes (decision D9). -/
def Obligations.SlasRefusedOutsideDirectMode : Prop :=
  ∀ (am : Mode) (w2 : Word) (s : State), s.cfg.slasNondirect = .refuse → am ≠ .direct →
    exec (.slas am w2) s = .refused .slasNondirect

/-! ## Frames -/

/-- What ADDS and SUBS leave: X, the parameters, and every word of memory but the pointer that POP and PUSH write (R80, R81).
OV may only be raised (decision D6). -/
def Obligations.ArithmeticFrame : Prop :=
  ∀ (am : Mode) (w2 : Word) (s t : State), ∀ i ∈ [Instr.adds am w2, .subs am w2], exec i s = .next t →
    t.x = s.x ∧ t.cfg = s.cfg ∧ (s.ov = true → t.ov = true) ∧
    ∀ op, stackOperand am w2 s = .ok op → ∀ n, ¬ (n = op.spa.toNat ∧ (am = .pop ∨ am = .push)) →
      t.mem.read n = s.mem.read n

/-- What the instructions that change only A leave (R82 to R84, R91, R110): X, OV, the parameters, and memory as for
ADDS. -/
def Obligations.LogicalAndLoadAFrame : Prop :=
  ∀ (am : Mode) (w2 : Word) (s t : State),
    ∀ i ∈ [Instr.ands am w2, .iors am w2, .xors am w2, .ldas am w2, .slas am w2], exec i s = .next t →
    t.x = s.x ∧ t.ov = s.ov ∧ t.cfg = s.cfg ∧
    ∀ op, stackOperand am w2 s = .ok op → ∀ n, ¬ (n = op.spa.toNat ∧ (am = .pop ∨ am = .push)) →
      t.mem.read n = s.mem.read n

/-- What LDXS leaves (R92): A, OV, the parameters, and memory as for ADDS. -/
def Obligations.LdxsFrame : Prop :=
  ∀ (am : Mode) (w2 : Word) (s t : State), exec (.ldxs am w2) s = .next t →
    t.a = s.a ∧ t.ov = s.ov ∧ t.cfg = s.cfg ∧
    ∀ op, stackOperand am w2 s = .ok op → ∀ n, ¬ (n = op.spa.toNat ∧ (am = .pop ∨ am = .push)) →
      t.mem.read n = s.mem.read n

/-- What CMSS and JMPS leave (R100, R102): A, X, OV, the parameters, and memory as for ADDS. -/
def Obligations.CompareAndJumpFrame : Prop :=
  ∀ (am : Mode) (w2 : Word) (s t : State), ∀ i ∈ [Instr.cmss am w2, .jmps am w2], exec i s = .next t →
    t.a = s.a ∧ t.x = s.x ∧ t.ov = s.ov ∧ t.cfg = s.cfg ∧
    ∀ op, stackOperand am w2 s = .ok op → ∀ n, ¬ (n = op.spa.toNat ∧ (am = .pop ∨ am = .push)) →
      t.mem.read n = s.mem.read n

/-- What STAS, STXS and JSTS leave (R93, R94, R103): A, X, OV, the parameters, and every word of memory but the element and
the pointer that POP and PUSH write. -/
def Obligations.StoreFrame : Prop :=
  ∀ (am : Mode) (w2 : Word) (s t : State), ∀ i ∈ [Instr.stas am w2, .stxs am w2, .jsts am w2], exec i s = .next t →
    t.a = s.a ∧ t.x = s.x ∧ t.ov = s.ov ∧ t.cfg = s.cfg ∧
    ∀ op, stackOperand am w2 s = .ok op → ∀ n, n ≠ op.sea.toNat →
      ¬ (n = op.spa.toNat ∧ (am = .pop ∨ am = .push)) → t.mem.read n = s.mem.read n

/-- What EMAS and IMSS leave (R90, R101): X and the parameters both; EMAS OV; IMSS A, and OV may only be raised (decision D6);
memory as for STAS. -/
def Obligations.ExchangeAndIncrementFrame : Prop :=
  ∀ (am : Mode) (w2 : Word) (s t : State), ∀ i ∈ [Instr.emas am w2, .imss am w2], exec i s = .next t →
    t.x = s.x ∧ t.cfg = s.cfg ∧ (i = .emas am w2 → t.ov = s.ov) ∧
    (i = .imss am w2 → t.a = s.a ∧ (s.ov = true → t.ov = true)) ∧
    ∀ op, stackOperand am w2 s = .ok op → ∀ n, n ≠ op.sea.toNat →
      ¬ (n = op.spa.toNat ∧ (am = .pop ∨ am = .push)) → t.mem.read n = s.mem.read n

/-- What BCA, BSA, BCX and BSX leave (R120 to R123): the register that is not their destination, OV (decision D6), all of
memory and the parameters. -/
def Obligations.RegisterChangeFrame : Prop :=
  ∀ (s t : State), ∀ i ∈ [Instr.bca, .bsa, .bcx, .bsx], exec i s = .next t →
    (i ∈ [Instr.bca, .bsa] → t.x = s.x) ∧ (i ∈ [Instr.bcx, .bsx] → t.a = s.a) ∧
    t.ov = s.ov ∧ t.cfg = s.cfg ∧ ∀ n, t.mem.read n = s.mem.read n

/-- R34, R35: an instruction other than EIX changes memory only at the addresses its data accesses write. -/
def Obligations.MemoryChangesOnlyWhereAccessesWrite : Prop :=
  ∀ (i : Instr) (s t : State) (l : List Access), i ≠ .eix → exec i s = .next t → dataAccesses i s = .ok l →
    ∀ n, (∀ k ∈ writtenAddrs l, n ≠ k.toNat) → t.mem.read n = s.mem.read n

/-! ## The stack pointer -/

/-- R71 to R74, R78: the pointer each mode leaves, whatever the instruction does with the element, unless it stores over the
pointer word itself in a mode that does not write it afterwards (decisions D5, D10). -/
def Obligations.EveryModeLeavesItsPointer : Prop :=
  ∀ (i : Instr) (am : Mode) (w2 : Word) (s t : State), i.operands? = some (am, w2) → s.mem.wf → exec i s = .next t →
    (am = .pop ∨ AccessKind.write ∉ elementAccesses i ∨ s.elementAddr am w2 ≠ low15 w2) →
    t.mem.read (low15 w2).toNat = (match am with
      | .direct => s.mem.read (low15 w2).toNat
      | .indexed => s.mem.read (low15 w2).toNat
      | .pop => s.mem.read (low15 w2).toNat + 1
      | .push => s.mem.read (low15 w2).toNat - 1)

/-- R79: what `STAS PTR,-` pushes, `LDAS PTR,+` pops, and the pointer is as it was, provided the pointer is not itself the
element pushed over and the top of memory is not reached (decisions D3, D5, D10). -/
def Obligations.PopReturnsWhatPushStored : Prop :=
  ∀ (w2 : Word) (s t u : State), s.mem.wf → exec (.stas .push w2) s = .next t →
    s.elementAddr .push w2 ≠ low15 w2 → s.admits (s.pointerWord w2) →
    u.mem = t.mem → u.cfg = t.cfg → u.p.toNat + 2 ≤ 32767 →
    ∃ v, exec (.ldas .pop w2) u = .next v ∧ v.a = s.a ∧
      v.mem.read (low15 w2).toNat = s.mem.read (low15 w2).toNat

/-- R105: `JSTS Q` enters the routine whose entry word is S = Mem[Q], and `JMPS S` later returns to the word after the call,
if the entry word is as the call left it. -/
def Obligations.JmpsReturnsToTheCaller : Prop :=
  ∀ (q : Word) (s t u : State), s.mem.wf → exec (.jsts .direct q) s = .next t →
    u.cfg = t.cfg → u.p.toNat + 1 ≤ 32767 →
    u.load (s.elementAddr .direct q) = t.load (s.elementAddr .direct q) →
    t.p = s.elementAddr .direct q + 1 ∧
      exec (.jmps .direct ((s.elementAddr .direct q).setWidth 16)) u = .next { u with p := s.p + 2 }

/-! ## The whole machine -/

/-- Every step keeps the invariant: the parameters in range, memory in canonical form, no word listed beyond the installed
memory (R6, R20, R31). -/
def Obligations.StepKeepsTheInvariant : Prop :=
  ∀ s t : State, s.Inv → step s = .next t → t.Inv

/-- The state after reset meets the invariant. Its values are the model's choices (log entries 1 to 4). -/
def Obligations.ResetMeetsTheInvariant : Prop := State.reset.Inv

/-- What reset leaves: registers and OV zero, every word of memory zero, the defaults of R6. The spec states no reset value
(R22): all are the model's choices, log entries 1, 2, 3 and 4. -/
def Obligations.ResetLeavesTheChosenValues : Prop :=
  State.reset.a = 0 ∧ State.reset.x = 0 ∧ State.reset.p = 0 ∧ State.reset.ov = false ∧
    (∀ k : Addr, State.reset.load k = 0) ∧
    State.reset.cfg.memWords = 32768 ∧ State.reset.cfg.bit15 = .refuse ∧ State.reset.cfg.cmssSigned = true ∧
    State.reset.cfg.slasNondirect = .sea ∧ State.reset.cfg.haltAddr = none

/-- R16: OV is sticky, over every step: no step clears it (decision D6). -/
def Obligations.NoStepClearsOv : Prop :=
  ∀ s t : State, step s = .next t → s.ov = true → t.ov = true

/-- R16: no other of the 20 instructions touches OV: only ADDS, SUBS, IMSS, or an EIX that executes one of them. -/
def Obligations.OnlyAddsSubsImssTouchOv : Prop :=
  ∀ (i : Instr) (s t : State), exec i s = .next t → t.ov ≠ s.ov →
    (∃ am w2, i ∈ [Instr.adds am w2, .subs am w2, .imss am w2]) ∨
    (i = .eix ∧ ∃ loc am w2, ∃ j ∈ [Instr.adds am w2, .subs am w2, .imss am w2], eixTarget s = .ok (j, loc))

/-- R10, R11: no step writes both A and X, and none changes the parameters (R6). -/
def Obligations.StepWritesAtMostOneRegister : Prop :=
  ∀ s t : State, step s = .next t → (t.a = s.a ∨ t.x = s.x) ∧ t.cfg = s.cfg

/-- R6, R131: with `BaseStep` undefined everywhere the machine with a `BaseStep` is `step`. -/
def Obligations.UndefinedBaseStepIsStep : Prop :=
  ∀ s : State, stepWith BaseStep.undefined s = step s

/-- R131: a word that is none of the 20 has the meaning `BaseStep` gives it, in line and through EIX with the as-if location
EIX + 1 (R127). -/
def Obligations.BaseStepGivesBaseWordsTheirMeaning : Prop :=
  ∀ (base : BaseStep) (s t : State), s.cfg.haltAddr ≠ some s.p → s.installed s.p →
    (decode (s.load s.p) 0 = .error .notExtendedInstruction → base s (s.load s.p) s.p = some t →
      stepWith base s = .next t) ∧
    (s.load s.p = 0x0218 → s.p.toNat + 1 ≤ 32767 → s.admits s.x → s.installed (low15 s.x) →
      decode (s.load (low15 s.x)) 0 = .error .notExtendedInstruction →
      base s (s.load (low15 s.x)) (s.p + 1) = some t → stepWith base s = .next t)

/-- R143: with no interrupt delivered, a run is the uninterrupted sequence of steps. -/
def Obligations.NoInterruptsIsTheUninterruptedRun : Prop :=
  ∀ (n k : Nat) (s : State), runWith BaseStep.undefined Interrupts.none n k s = run n s

/-! ## The assembler -/

/-- R61, R62, R63: a line that is assembled makes the words of an instruction of its mnemonic at the location counter: of
Class 5 if it has no operand; else its second word is the line's address, below 32768, and its mode the one that the
character names, direct where there is none. -/
def Obligations.AssembledLineDecodesToItsMnemonic : Prop :=
  ∀ (st st' : AsmState) (l : AsmLine), assembleLine st l = some st' → l.opcode ≠ "MACH" →
    ∃ (i : Instr) (ws : List (Nat × Word)), st'.code = st.code ++ ws ∧ decodeWords (ws.map Prod.snd) = .ok (i, []) ∧
      i.mnemonic = l.opcode ∧ i.wf = true ∧
      (i.operands? = none ∧ l.operands = [] ∨
        ∃ n, n < 32768 ∧
          (i.operands? = some (.direct, BitVec.ofNat 16 n) ∧ l.operands = [.value n] ∨
            i.operands? = some (.push, BitVec.ofNat 16 n) ∧ l.operands = [.value n, .character '-'] ∨
            i.operands? = some (.pop, BitVec.ofNat 16 n) ∧ l.operands = [.value n, .character '+'] ∨
            i.operands? = some (.indexed, BitVec.ofNat 16 n) ∧ l.operands = [.value n, .character '@'])) ∧
      st'.location = st.location + ws.length ∧
      ∀ k c, ws[k]? = some c → c.1 = st.location + k

/-- R66, R67: an instruction the MACH flag word does not admit is flagged, and assembled all the same: the words do not
depend on the flag word, and the line is flagged exactly when bit 2 of the flag word is 0. -/
def Obligations.FlaggedInstructionsAreAssembledCorrectly : Prop :=
  ∀ (st st' : AsmState) (l : AsmLine) (flag : Nat), assembleLine st l = some st' → l.opcode ≠ "MACH" →
    (∃ st'', assembleLine { st with machFlag := flag } l = some st'' ∧ st''.code = st'.code ∧
      st''.location = st'.location ∧ st''.symbols = st'.symbols) ∧
    st'.flagged = (if st.machFlag.testBit 2 then st.flagged else st.flagged ++ [st.location])

/-- R61, R62, R63: every well-formed instruction has its line, which is assembled, with any label and any comments, to the
words of that instruction at the location counter. -/
def Obligations.EveryInstructionHasItsLine : Prop :=
  ∀ (i : Instr) (st : AsmState) (label comments : Option String), i.wf = true →
    let operands : List AsmOperand := match i.operands? with
      | none => []
      | some (.direct, spa) => [.value spa.toNat]
      | some (.push, spa) => [.value spa.toNat, .character '-']
      | some (.pop, spa) => [.value spa.toNat, .character '+']
      | some (.indexed, spa) => [.value spa.toNat, .character '@']
    ∃ st', assembleLine st ⟨label, i.mnemonic, operands, comments⟩ = some st' ∧
      st'.code = st.code ++ (encode i).zipIdx.map (fun c => (st.location + c.2, c.1))
end

