-- ==== Sys2Proof/Laws/State.lean ====
section
/-!
SUPPORT. One lemma per field per update of State.
-/

namespace Sys2Proof.Machine

@[simp] theorem State.setA_a (s : State) (v : Word) : (s.setA v).a = v := rfl
@[simp] theorem State.setA_x (s : State) (v : Word) : (s.setA v).x = s.x := rfl
@[simp] theorem State.setA_p (s : State) (v : Word) : (s.setA v).p = s.p := rfl
@[simp] theorem State.setA_ov (s : State) (v : Word) : (s.setA v).ov = s.ov := rfl
@[simp] theorem State.setA_mem (s : State) (v : Word) : (s.setA v).mem = s.mem := rfl
@[simp] theorem State.setA_cfg (s : State) (v : Word) : (s.setA v).cfg = s.cfg := rfl

@[simp] theorem State.setX_a (s : State) (v : Word) : (s.setX v).a = s.a := rfl
@[simp] theorem State.setX_x (s : State) (v : Word) : (s.setX v).x = v := rfl
@[simp] theorem State.setX_p (s : State) (v : Word) : (s.setX v).p = s.p := rfl
@[simp] theorem State.setX_ov (s : State) (v : Word) : (s.setX v).ov = s.ov := rfl
@[simp] theorem State.setX_mem (s : State) (v : Word) : (s.setX v).mem = s.mem := rfl
@[simp] theorem State.setX_cfg (s : State) (v : Word) : (s.setX v).cfg = s.cfg := rfl

@[simp] theorem State.setP_a (s : State) (v : Addr) : (s.setP v).a = s.a := rfl
@[simp] theorem State.setP_x (s : State) (v : Addr) : (s.setP v).x = s.x := rfl
@[simp] theorem State.setP_p (s : State) (v : Addr) : (s.setP v).p = v := rfl
@[simp] theorem State.setP_ov (s : State) (v : Addr) : (s.setP v).ov = s.ov := rfl
@[simp] theorem State.setP_mem (s : State) (v : Addr) : (s.setP v).mem = s.mem := rfl
@[simp] theorem State.setP_cfg (s : State) (v : Addr) : (s.setP v).cfg = s.cfg := rfl

@[simp] theorem State.raiseOv_a (s : State) (b : Bool) : (s.raiseOv b).a = s.a := rfl
@[simp] theorem State.raiseOv_x (s : State) (b : Bool) : (s.raiseOv b).x = s.x := rfl
@[simp] theorem State.raiseOv_p (s : State) (b : Bool) : (s.raiseOv b).p = s.p := rfl
@[simp] theorem State.raiseOv_ov (s : State) (b : Bool) : (s.raiseOv b).ov = (s.ov || b) := rfl
@[simp] theorem State.raiseOv_mem (s : State) (b : Bool) : (s.raiseOv b).mem = s.mem := rfl
@[simp] theorem State.raiseOv_cfg (s : State) (b : Bool) : (s.raiseOv b).cfg = s.cfg := rfl

@[simp] theorem State.store_a (s : State) (k : Addr) (v : Word) : (s.store k v).a = s.a := rfl
@[simp] theorem State.store_x (s : State) (k : Addr) (v : Word) : (s.store k v).x = s.x := rfl
@[simp] theorem State.store_p (s : State) (k : Addr) (v : Word) : (s.store k v).p = s.p := rfl
@[simp] theorem State.store_ov (s : State) (k : Addr) (v : Word) : (s.store k v).ov = s.ov := rfl
@[simp] theorem State.store_mem (s : State) (k : Addr) (v : Word) : (s.store k v).mem = s.mem.write k.toNat v := rfl
@[simp] theorem State.store_cfg (s : State) (k : Addr) (v : Word) : (s.store k v).cfg = s.cfg := rfl

end Sys2Proof.Machine
end

