-- ==== Sys2Proof/Laws/Memory.lean ====
section
/-!
SUPPORT. Memory: a write is read back, leaves every other word alone, and keeps the canonical form.
-/

namespace Sys2Proof.Machine

/-- Below the first listed address nothing is listed. -/
theorem Memory.read_below (m : Memory) (k : Nat) (h : ∀ c ∈ m, k < c.1) : m.read k = Memory.unlisted := by
  induction m with
  | nil => rfl
  | cons c m ih =>
    have hc := h c (by simp)
    have : c.1 ≠ k := by omega
    simp only [Memory.read, this, if_false]
    exact ih (fun d hd => h d (by simp [hd]))

/-- What a write leaves at the address it wrote. -/
theorem Memory.read_write_same (m : Memory) (k : Nat) (v : Word) (hm : m.wf) : (m.write k v).read k = v := by
  induction m with
  | nil => unfold Memory.write; split <;> simp_all [Memory.read]
  | cons c m ih =>
    obtain ⟨j, u⟩ := c
    have htail : Memory.wf m := ⟨hm.1.of_cons, fun d hd => hm.2 d (by simp [hd])⟩
    have hbelow : ∀ d ∈ m, j < d.1 := fun d hd => (List.pairwise_cons.mp hm.1).1 d hd
    unfold Memory.write
    split
    · rename_i hkj
      split
      · rename_i hv
        rw [hv]
        exact Memory.read_below _ _ (by
          intro d hd
          rcases List.mem_cons.mp hd with rfl | hd
          · exact hkj
          · exact lt_trans hkj (hbelow d hd))
      · simp [Memory.read]
    · split
      · rename_i hkj
        split
        · rename_i hv
          rw [hv, hkj]
          exact Memory.read_below _ _ hbelow
        · simp [Memory.read]
      · rename_i hkj
        have : j ≠ k := fun e => hkj e.symm
        simp only [Memory.read, this, if_false]
        exact ih htail

/-- A write leaves every other address as it was, in any memory. -/
theorem Memory.read_write_other (m : Memory) (k n : Nat) (v : Word) (hn : n ≠ k) :
    (m.write k v).read n = m.read n := by
  have hk : ¬ k = n := fun e => hn e.symm
  induction m with
  | nil => unfold Memory.write; split <;> simp [Memory.read, hk]
  | cons c m ih =>
    obtain ⟨j, u⟩ := c
    unfold Memory.write
    split
    · split
      · rfl
      · simp [Memory.read, hk]
    · split
      · rename_i hkj
        subst hkj
        split <;> simp [Memory.read, hk]
      · simp [Memory.read, ih]

/-- Every address a write lists was listed before or is the one written. -/
theorem Memory.mem_write (m : Memory) (k : Nat) (v : Word) (c : Nat × Word) (hc : c ∈ m.write k v) :
    c ∈ m ∨ c = (k, v) := by
  induction m with
  | nil => unfold Memory.write at hc; split at hc <;> simp_all
  | cons d m ih =>
    obtain ⟨j, u⟩ := d
    unfold Memory.write at hc
    split at hc
    · split at hc
      · exact .inl hc
      · rcases List.mem_cons.mp hc with rfl | h
        · exact .inr rfl
        · exact .inl h
    · split at hc
      · split at hc
        · exact .inl (by simp [hc])
        · rcases List.mem_cons.mp hc with rfl | h
          · exact .inr rfl
          · exact .inl (by simp [h])
      · rcases List.mem_cons.mp hc with rfl | h
        · exact .inl (by simp)
        · rcases ih h with h | h
          · exact .inl (by simp [h])
          · exact .inr h

/-- A write keeps the canonical form. -/
theorem Memory.write_wf (m : Memory) (k : Nat) (v : Word) (hm : m.wf) : (m.write k v).wf := by
  induction m with
  | nil => unfold Memory.write; split <;> simp_all [Memory.wf]
  | cons c m ih =>
    obtain ⟨j, u⟩ := c
    have htail : Memory.wf m := ⟨hm.1.of_cons, fun d hd => hm.2 d (by simp [hd])⟩
    have hbelow : ∀ d ∈ m, j < d.1 := fun d hd => (List.pairwise_cons.mp hm.1).1 d hd
    have hu : u ≠ Memory.unlisted := hm.2 (j, u) (by simp)
    unfold Memory.write
    split
    · rename_i hkj
      split
      · exact hm
      · rename_i hv
        refine ⟨List.pairwise_cons.mpr ⟨?_, hm.1⟩, ?_⟩
        · intro d hd
          rcases List.mem_cons.mp hd with rfl | hd
          · exact hkj
          · exact lt_trans hkj (hbelow d hd)
        · intro d hd
          rcases List.mem_cons.mp hd with rfl | hd
          · exact hv
          · exact hm.2 d hd
    · split
      · rename_i hkj
        subst hkj
        split
        · exact htail
        · rename_i hv
          refine ⟨List.pairwise_cons.mpr ⟨hbelow, htail.1⟩, ?_⟩
          intro d hd
          rcases List.mem_cons.mp hd with rfl | hd
          · exact hv
          · exact htail.2 d hd
      · rename_i hlt hne
        obtain ⟨hp, hv⟩ := ih htail
        refine ⟨List.pairwise_cons.mpr ⟨?_, hp⟩, ?_⟩
        · intro d hd
          rcases Memory.mem_write m k v d hd with hd | rfl
          · exact hbelow d hd
          · show j < k
            omega
        · intro d hd
          rcases List.mem_cons.mp hd with rfl | hd
          · exact hu
          · exact hv d hd

/-- Reads through the state: the word just stored. -/
theorem State.load_store_same (s : State) (k : Addr) (v : Word) (hm : s.mem.wf) : (s.store k v).load k = v :=
  Memory.read_write_same _ _ _ hm

/-- Reads through the state: every other word. -/
theorem State.load_store_other (s : State) (k n : Addr) (v : Word) (hn : n ≠ k) : (s.store k v).load n = s.load n :=
  Memory.read_write_other _ _ _ _ (fun e => hn (BitVec.eq_of_toNat_eq e))

end Sys2Proof.Machine
end

