-- ==== Sys2Proof/Laws/Ops.lean ====
section
/-!
SUPPORT. What each named operation answers.
-/

namespace Sys2Proof.Machine

/-- A computation completes when its first part does and the rest does from there. -/
theorem bind_eq_ok_iff {α β : Type} (c : Except Refusal α) (f : α → Except Refusal β) (b : β) :
    (c >>= f) = .ok b ↔ ∃ a, c = .ok a ∧ f a = .ok b := by
  cases c <;> simp [bind, Except.bind]

theorem outcome_eq_next_iff (c : Except Refusal State) (t : State) : outcome c = .next t ↔ c = .ok t := by
  cases c <;> simp [outcome]

/-- No operation of the 20 faults (R140). -/
theorem outcome_ne_fault (c : Except Refusal State) (f : Fault) : outcome c ≠ .fault f := by
  cases c <;> simp [outcome]

theorem addr15_eq_ok_iff (c : Config) (v : Word) (k : Addr) :
    addr15 c v = .ok k ↔ (c.bit15 = .mask ∨ v.msb = false) ∧ k = low15 v := by
  unfold addr15
  cases hb : c.bit15
  · by_cases hv : v.msb = true
    · simp [hv]
    · simp only [hv, Bool.false_eq_true, if_false, Except.ok.injEq, reduceCtorEq, false_or, true_and]
      exact eq_comm
  · simp only [Except.ok.injEq, true_or, true_and]
    exact eq_comm

theorem advance_eq_ok_iff (k : Addr) (n : Nat) (q : Addr) :
    advance k n = .ok q ↔ k.toNat + n ≤ 32767 ∧ q = k + BitVec.ofNat 15 n := by
  unfold advance
  split <;> simp_all [eq_comm]

/-- An advance that is not refused is exact (R15). -/
theorem advance_toNat {k : Addr} {n : Nat} {q : Addr} (h : advance k n = .ok q) : q.toNat = k.toNat + n := by
  obtain ⟨hle, rfl⟩ := (advance_eq_ok_iff k n q).mp h
  rw [BitVec.toNat_add, BitVec.toNat_ofNat]
  omega

theorem checkInstalled_eq_ok_iff (s : State) (k : Addr) (u : Unit) : checkInstalled s k = .ok u ↔ s.installed k := by
  unfold checkInstalled
  split <;> simp_all

theorem readWord_eq_ok_iff (s : State) (k : Addr) (v : Word) :
    readWord s k = .ok v ↔ s.installed k ∧ v = s.load k := by
  unfold readWord checkInstalled
  split <;> simp_all [bind, Except.bind, pure, Except.pure, eq_comm]

theorem writeWord_eq_ok_iff (s : State) (k : Addr) (v : Word) (t : State) :
    writeWord s k v = .ok t ↔ s.installed k ∧ t = s.store k v := by
  unfold writeWord checkInstalled
  split <;> simp_all [bind, Except.bind, pure, Except.pure, eq_comm]

/-- Completing a two-word fetch takes the second word from the next address (R126, R131). -/
theorem instrAt_eq_ok_iff (w1 : Word) (loc : Addr) (s : State) (i : Instr) :
    instrAt w1 loc s = .ok i ↔
      if hasSecondWord w1 then
        loc.toNat + 1 ≤ 32767 ∧ s.installed (loc + 1) ∧ decode w1 (s.load (loc + 1)) = .ok i
      else decode w1 0 = .ok i := by
  have hd : ∀ w2, decodeFetched w1 w2 = .ok i ↔ decode w1 w2 = .ok i := by
    intro w2
    unfold decodeFetched
    split <;> simp_all
  unfold instrAt
  split
  · simp only [bind_eq_ok_iff, advance_eq_ok_iff, readWord_eq_ok_iff, hd]
    constructor
    · rintro ⟨q, ⟨hq, rfl⟩, w2, ⟨hi, rfl⟩, h⟩
      exact ⟨hq, hi, h⟩
    · rintro ⟨hq, hi, h⟩
      exact ⟨_, ⟨hq, rfl⟩, _, ⟨hi, rfl⟩, h⟩
  · exact hd 0

end Sys2Proof.Machine
end

