-- ==== Sys2Proof/Laws/Operands.lean ====
section
/-!
SUPPORT. What StackOperand and the shared instruction shapes answer.
-/

namespace Sys2Proof.Machine

/-- The access that StackOperand returns where it is not refused (R75). -/
def State.access (s : State) (am : Mode) (w2 : Word) : StackAccess :=
  { spa := low15 w2
    sea := s.elementAddr am w2
    st := s.pushed am w2
    post := if am = .pop then some (s.pointerWord w2 + 1) else none }

/-- StackOperand answers exactly when `stackReady` holds, and then with that access (R75). -/
theorem stackOperand_eq_ok_iff (am : Mode) (w2 : Word) (s : State) (op : StackAccess) :
    stackOperand am w2 s = .ok op ↔ s.stackReady am w2 ∧ op = s.access am w2 := by
  unfold stackOperand accessAt
  simp only [bind_eq_ok_iff, advance_eq_ok_iff, addr15_eq_ok_iff, readWord_eq_ok_iff]
  cases am <;>
    simp only [State.stackReady, State.access, State.pushed, State.elementAddr, State.pointerWord, elementPointer,
      pointerLeft, pure, Except.pure, bind_eq_ok_iff, addr15_eq_ok_iff, Except.ok.injEq, reduceCtorEq, if_false, if_true,
      false_implies, and_true, true_implies] <;>
    constructor
  · rintro ⟨_, ⟨h1, rfl⟩, _, ⟨h2, rfl⟩, _, ⟨h3, rfl⟩, _, ⟨h4, rfl⟩, rfl⟩
    exact ⟨⟨h1, h2, h3, h4⟩, rfl⟩
  · rintro ⟨⟨h1, h2, h3, h4⟩, rfl⟩
    exact ⟨_, ⟨h1, rfl⟩, _, ⟨h2, rfl⟩, _, ⟨h3, rfl⟩, _, ⟨h4, rfl⟩, rfl⟩
  · rintro ⟨_, ⟨h1, rfl⟩, _, ⟨h2, rfl⟩, _, ⟨h3, rfl⟩, _, ⟨h4, rfl⟩, rfl⟩
    exact ⟨⟨h1, h2, h3, h4⟩, rfl⟩
  · rintro ⟨⟨h1, h2, h3, h4⟩, rfl⟩
    exact ⟨_, ⟨h1, rfl⟩, _, ⟨h2, rfl⟩, _, ⟨h3, rfl⟩, _, ⟨h4, rfl⟩, rfl⟩
  · rintro ⟨_, ⟨h1, rfl⟩, _, ⟨h2, rfl⟩, _, ⟨h3, rfl⟩, _, ⟨h4, rfl⟩, _, ⟨h5, rfl⟩, rfl⟩
    exact ⟨⟨h1, h2, h3, h4, h5⟩, rfl⟩
  · rintro ⟨⟨h1, h2, h3, h4, h5⟩, rfl⟩
    exact ⟨_, ⟨h1, rfl⟩, _, ⟨h2, rfl⟩, _, ⟨h3, rfl⟩, _, ⟨h4, rfl⟩, _, ⟨h5, rfl⟩, rfl⟩
  · rintro ⟨_, ⟨h1, rfl⟩, _, ⟨h2, rfl⟩, _, ⟨h3, rfl⟩, _, ⟨h4, rfl⟩, rfl⟩
    exact ⟨⟨h1, h2, h3, h4⟩, rfl⟩
  · rintro ⟨⟨h1, h2, h3, h4⟩, rfl⟩
    exact ⟨_, ⟨h1, rfl⟩, _, ⟨h2, rfl⟩, _, ⟨h3, rfl⟩, _, ⟨h4, rfl⟩, rfl⟩

/-- The POP write-back, in the terms of `popped` (R73). -/
theorem restore_access (s t : State) (am : Mode) (w2 : Word) : (s.access am w2).restore t = s.popped t am w2 := by
  cases am <;> rfl

/-- The PUSH write-back changes memory alone. -/
theorem State.pushed_eq (s : State) (am : Mode) (w2 : Word) : s.pushed am w2 = { s with mem := (s.pushed am w2).mem } := by
  cases am <;> rfl

@[simp] theorem State.pushed_a (s : State) (am : Mode) (w2 : Word) : (s.pushed am w2).a = s.a := by cases am <;> rfl
@[simp] theorem State.pushed_x (s : State) (am : Mode) (w2 : Word) : (s.pushed am w2).x = s.x := by cases am <;> rfl
@[simp] theorem State.pushed_p (s : State) (am : Mode) (w2 : Word) : (s.pushed am w2).p = s.p := by cases am <;> rfl
@[simp] theorem State.pushed_ov (s : State) (am : Mode) (w2 : Word) : (s.pushed am w2).ov = s.ov := by cases am <;> rfl
@[simp] theorem State.pushed_cfg (s : State) (am : Mode) (w2 : Word) : (s.pushed am w2).cfg = s.cfg := by
  cases am <;> rfl

@[simp] theorem State.popped_a (s t : State) (am : Mode) (w2 : Word) : (s.popped t am w2).a = t.a := by cases am <;> rfl
@[simp] theorem State.popped_x (s t : State) (am : Mode) (w2 : Word) : (s.popped t am w2).x = t.x := by cases am <;> rfl
@[simp] theorem State.popped_p (s t : State) (am : Mode) (w2 : Word) : (s.popped t am w2).p = t.p := by cases am <;> rfl
@[simp] theorem State.popped_ov (s t : State) (am : Mode) (w2 : Word) : (s.popped t am w2).ov = t.ov := by
  cases am <;> rfl
@[simp] theorem State.popped_cfg (s t : State) (am : Mode) (w2 : Word) : (s.popped t am w2).cfg = t.cfg := by
  cases am <;> rfl

/-- The PUSH write-back keeps the canonical form. -/
theorem State.pushed_wf (s : State) (am : Mode) (w2 : Word) (hm : s.mem.wf) : (s.pushed am w2).mem.wf := by
  cases am
  · exact hm
  · exact hm
  · exact hm
  · exact Memory.write_wf _ _ _ hm

/-- The POP write-back keeps the canonical form. -/
theorem State.popped_wf (s t : State) (am : Mode) (w2 : Word) (hm : t.mem.wf) : (s.popped t am w2).mem.wf := by
  cases am
  · exact hm
  · exact hm
  · exact Memory.write_wf _ _ _ hm
  · exact hm

/-- Reading the element: exactly when `elementReady` holds (R31, R75). -/
theorem readElement_eq_ok_iff (am : Mode) (w2 : Word) (s : State) (r : StackAccess × Word) :
    readElement am w2 s = .ok r ↔ s.elementReady am w2 ∧ r = (s.access am w2, s.element am w2) := by
  unfold readElement
  simp only [bind_eq_ok_iff, stackOperand_eq_ok_iff, readWord_eq_ok_iff, pure, Except.pure, Except.ok.injEq]
  constructor
  · rintro ⟨_, ⟨h1, rfl⟩, _, ⟨h2, rfl⟩, rfl⟩
    refine ⟨⟨h1, ?_⟩, rfl⟩
    simpa [State.installed, State.access] using h2
  · rintro ⟨⟨h1, h2⟩, rfl⟩
    refine ⟨_, ⟨h1, rfl⟩, _, ⟨?_, rfl⟩, rfl⟩
    simpa [State.installed, State.access] using h2

/-- The five arithmetic and logical instructions: when they complete, and with what (R80 to R84). -/
theorem combineWithA_eq_ok_iff (f : Word → Word → Word) (overflows : Word → Word → Bool) (am : Mode) (w2 : Word)
    (s t : State) :
    combineWithA f overflows am w2 s = .ok t ↔
      s.elementReady am w2 ∧ s.p.toNat + 2 ≤ 32767 ∧
        t = (s.popped (((s.pushed am w2).setA (f s.a (s.element am w2))).raiseOv
          (overflows s.a (s.element am w2))) am w2).setP (s.p + 2) := by
  unfold combineWithA
  simp only [bind_eq_ok_iff, readElement_eq_ok_iff, advance_eq_ok_iff, pure, Except.pure, Except.ok.injEq]
  constructor
  · rintro ⟨_, ⟨h1, rfl⟩, _, ⟨h2, rfl⟩, rfl⟩
    exact ⟨h1, h2, by rw [restore_access]; rfl⟩
  · rintro ⟨h1, h2, rfl⟩
    exact ⟨_, ⟨h1, rfl⟩, _, ⟨h2, rfl⟩, by rw [restore_access]; rfl⟩

/-- The two stores: when they complete, and with what (R93, R94). -/
theorem storeElement_eq_ok_iff (v : Word) (am : Mode) (w2 : Word) (s t : State) :
    storeElement v am w2 s = .ok t ↔
      s.elementReady am w2 ∧ s.p.toNat + 2 ≤ 32767 ∧
        t = (s.popped ((s.pushed am w2).store (s.elementAddr am w2) v) am w2).setP (s.p + 2) := by
  unfold storeElement
  simp only [bind_eq_ok_iff, stackOperand_eq_ok_iff, writeWord_eq_ok_iff, advance_eq_ok_iff, pure, Except.pure,
    Except.ok.injEq]
  constructor
  · rintro ⟨_, ⟨h1, rfl⟩, _, ⟨h3, rfl⟩, _, ⟨h2, rfl⟩, rfl⟩
    refine ⟨⟨h1, ?_⟩, h2, by rw [restore_access]; rfl⟩
    simpa [State.installed, State.access] using h3
  · rintro ⟨⟨h1, h3⟩, h2, rfl⟩
    refine ⟨_, ⟨h1, rfl⟩, _, ⟨?_, rfl⟩, _, ⟨h2, rfl⟩, by rw [restore_access]; rfl⟩
    simpa [State.installed, State.access] using h3

end Sys2Proof.Machine
end

