-- ==== Sys2Proof/Laws/PerInstr.lean ====
section
/-!
SUPPORT. FirstWordInTable, per instruction: the encoder's first word belongs to the instruction's own row of the opcode
table, and the encoder makes as many words as that row gives.
-/

namespace Sys2Proof.Laws.FirstWordInTable

/-- The row found by the mnemonic covers the first word of the encoding, and its length is the encoding's. -/
def Statement (i : Instr) : Prop :=
  ∃ r, i.row? = some r ∧ (encode i).head?.map r.covers = some true ∧ (encode i).length = r.lengthWords

theorem ands (am : Mode) (spa : Word) : Statement (.ands am spa) := by
  cases am <;> exact ⟨_, rfl, rfl, rfl⟩

theorem adds (am : Mode) (spa : Word) : Statement (.adds am spa) := by
  cases am <;> exact ⟨_, rfl, rfl, rfl⟩

theorem subs (am : Mode) (spa : Word) : Statement (.subs am spa) := by
  cases am <;> exact ⟨_, rfl, rfl, rfl⟩

theorem stas (am : Mode) (spa : Word) : Statement (.stas am spa) := by
  cases am <;> exact ⟨_, rfl, rfl, rfl⟩

theorem iors (am : Mode) (spa : Word) : Statement (.iors am spa) := by
  cases am <;> exact ⟨_, rfl, rfl, rfl⟩

theorem xors (am : Mode) (spa : Word) : Statement (.xors am spa) := by
  cases am <;> exact ⟨_, rfl, rfl, rfl⟩

theorem ldas (am : Mode) (spa : Word) : Statement (.ldas am spa) := by
  cases am <;> exact ⟨_, rfl, rfl, rfl⟩

theorem emas (am : Mode) (spa : Word) : Statement (.emas am spa) := by
  cases am <;> exact ⟨_, rfl, rfl, rfl⟩

theorem slas (am : Mode) (spa : Word) : Statement (.slas am spa) := by
  cases am <;> exact ⟨_, rfl, rfl, rfl⟩

theorem cmss (am : Mode) (spa : Word) : Statement (.cmss am spa) := by
  cases am <;> exact ⟨_, rfl, rfl, rfl⟩

theorem imss (am : Mode) (spa : Word) : Statement (.imss am spa) := by
  cases am <;> exact ⟨_, rfl, rfl, rfl⟩

theorem ldxs (am : Mode) (spa : Word) : Statement (.ldxs am spa) := by
  cases am <;> exact ⟨_, rfl, rfl, rfl⟩

theorem stxs (am : Mode) (spa : Word) : Statement (.stxs am spa) := by
  cases am <;> exact ⟨_, rfl, rfl, rfl⟩

theorem jmps (am : Mode) (spa : Word) : Statement (.jmps am spa) := by
  cases am <;> exact ⟨_, rfl, rfl, rfl⟩

theorem jsts (am : Mode) (spa : Word) : Statement (.jsts am spa) := by
  cases am <;> exact ⟨_, rfl, rfl, rfl⟩

theorem eix : Statement .eix := ⟨_, rfl, rfl, rfl⟩

theorem bsx : Statement .bsx := ⟨_, rfl, rfl, rfl⟩

theorem bsa : Statement .bsa := ⟨_, rfl, rfl, rfl⟩

theorem bcx : Statement .bcx := ⟨_, rfl, rfl, rfl⟩

theorem bca : Statement .bca := ⟨_, rfl, rfl, rfl⟩

end Sys2Proof.Laws.FirstWordInTable
end

