-- ==== Sys2Proof/Laws/Step.lean ====
section
/-!
SUPPORT. What a step and a run are made of.
-/

namespace Sys2Proof.Machine

/-- A step that goes on has fetched an instruction and run it (R130). -/
theorem step_eq_next_iff (s t : State) :
    step s = .next t ↔ s.cfg.haltAddr ≠ some s.p ∧ ∃ i, fetch s = .ok i ∧ exec i s = .next t := by
  unfold step
  split
  · simp_all
  · split <;> simp_all

/-- A fetch answers where the first word is installed and completes to an instruction (R35, R131). -/
theorem fetch_eq_ok_iff (s : State) (i : Instr) :
    fetch s = .ok i ↔ s.installed s.p ∧ instrAt (s.load s.p) s.p s = .ok i := by
  unfold fetch
  simp only [bind_eq_ok_iff, readWord_eq_ok_iff]
  constructor
  · rintro ⟨_, ⟨h, rfl⟩, h2⟩
    exact ⟨h, h2⟩
  · rintro ⟨h, h2⟩
    exact ⟨_, ⟨h, rfl⟩, h2⟩

/-- EIX finds its target where EIX + 1 exists and X is an admitted address of an installed word (R125, R126). -/
theorem eixTarget_eq_ok_iff (s : State) (i : Instr) (loc : Addr) :
    eixTarget s = .ok (i, loc) ↔
      s.p.toNat + 1 ≤ 32767 ∧ s.admits s.x ∧ s.installed (low15 s.x) ∧ loc = s.p + 1 ∧
        instrAt (s.load (low15 s.x)) loc s = .ok i := by
  unfold eixTarget eixWord
  simp only [bind_eq_ok_iff, advance_eq_ok_iff, addr15_eq_ok_iff, readWord_eq_ok_iff, pure, Except.pure, Except.ok.injEq]
  constructor
  · rintro ⟨_, ⟨_, ⟨h1, rfl⟩, _, ⟨h2, rfl⟩, _, ⟨h3, rfl⟩, rfl⟩, _, h4, h5⟩
    cases h5
    exact ⟨h1, h2, h3, rfl, h4⟩
  · rintro ⟨h1, h2, h3, rfl, h4⟩
    exact ⟨_, ⟨_, ⟨h1, rfl⟩, _, ⟨h2, rfl⟩, _, ⟨h3, rfl⟩, rfl⟩, _, h4, rfl⟩

/-- EIX goes on where it finds a target and the target's meaning goes on (R125). -/
theorem execEix_eq_next_iff (s t : State) :
    execEix s = .next t ↔ ∃ i loc, eixTarget s = .ok (i, loc) ∧ execTarget i (s.setP loc) = .next t := by
  unfold execEix
  split
  · rename_i h
    simp [h]
  · rename_i h
    simp [h]

/-- Through EIX every other instruction has its own meaning (R131). -/
theorem execTarget_eq_exec (i : Instr) (s : State) (h : i ≠ .eix) : execTarget i s = exec i s := by
  cases i <;> first | rfl | exact absurd rfl h

/-- The shape of BCA, BCX, BSA and BSX goes on where P + 1 is in range (R15). -/
theorem stepOverOneWord_eq_next_iff (s u t : State) :
    stepOverOneWord s u = .next t ↔ s.p.toNat + 1 ≤ 32767 ∧ t = u.setP (s.p + 1) := by
  unfold stepOverOneWord
  simp only [outcome_eq_next_iff, bind_eq_ok_iff, advance_eq_ok_iff, pure, Except.pure, Except.ok.injEq]
  constructor
  · rintro ⟨_, ⟨h, rfl⟩, rfl⟩
    exact ⟨h, rfl⟩
  · rintro ⟨h, rfl⟩
    exact ⟨_, ⟨h, rfl⟩, rfl⟩

/-- The host's run of this machine is `run`. -/
theorem core_run_eq_run (k : Nat) (s : State) : Sys2Proof.core.run k s = run k s := by
  have general : ∀ (M : Host.Core) (f : Nat → M.State → Host.Outcome M.State M.Fault M.Refusal),
      (∀ u, f 0 u = .next u) →
      (∀ n u t, M.step u = .next t → f (n + 1) u = f n t) →
      (∀ n u r, M.step u = .fault r → f (n + 1) u = .fault r) →
      (∀ n u r, M.step u = .refused r → f (n + 1) u = .refused r) → ∀ n u, M.run n u = f n u := by
    intro M f h0 hn hf hr n
    induction n with
    | zero => intro u; rw [h0]; rfl
    | succ n ih =>
      intro u
      rw [Host.Core.run]
      cases h : M.step u with
      | next t => rw [hn n u t h, ← ih t]
      | fault r => rw [hf n u r h]
      | refused r => rw [hr n u r h]
  refine general Sys2Proof.core run (fun _ => rfl) ?_ ?_ ?_ k s
  · intro n u t h
    have h' : step u = .next t := h
    show run (n + 1) u = run n t
    simp only [run, h']
  · intro n u r h
    have h' : step u = .fault r := h
    show run (n + 1) u = .fault r
    simp only [run, h']
  · intro n u r h
    have h' : step u = .refused r := h
    show run (n + 1) u = .refused r
    simp only [run, h']

end Sys2Proof.Machine
end

