-- ==== Sys2Proof/Machine/Timing.lean ====
section
/-!
DEFINITION. Appendix C: memory parameters and execution times, in nanoseconds (spec/70_reset_and_hazards.md R170 to R175).
The step has no clock and no rule of it uses this file (R176).
-/

namespace Sys2Proof.Machine

/-- The four memory module types (R170). -/
inductive MemoryType where
  | core980
  | core1200
  | core1600
  | sc1200
  deriving DecidableEq, Repr

/-- A row of Table C-1 (R170). -/
structure MemoryTimes where
  /-- C, cycle time. -/
  cycle : Nat
  /-- RA, read access. -/
  ra : Nat
  /-- RO, read overhead. -/
  ro : Nat
  /-- WA, write access. -/
  wa : Nat
  /-- WO, write overhead. -/
  wo : Nat
  /-- M, LSI-1 effective read access. -/
  lsi1Read : Nat
  /-- M', LSI-1 effective write access. -/
  lsi1Write : Nat
  /-- ROI, interleaved effective read overhead. -/
  roi : Nat
  /-- WOI, interleaved effective write overhead. -/
  woi : Nat
  deriving DecidableEq, Repr

/-- Table C-1 (R170). -/
def memoryTimes : MemoryType → MemoryTimes
  | .core980 => ⟨980, 380, 600, 180, 800, 600, 400, 220, 420⟩
  | .core1200 => ⟨1200, 400, 800, 200, 1000, 600, 400, 300, 500⟩
  | .core1600 => ⟨1600, 450, 1150, 250, 1350, 600, 400, 0, 0⟩
  | .sc1200 => ⟨1200, 500, 700, 200, 1000, 600, 400, 0, 0⟩

/-- `n/RO` of R171: the larger of the two; overlapped, ROI stands for RO. -/
def orReadOverhead (t : MemoryType) (overlapped : Bool) (n : Nat) : Nat :=
  max n (if overlapped then (memoryTimes t).roi else (memoryTimes t).ro)

/-- `n/WO` of R171. -/
def orWriteOverhead (t : MemoryType) (overlapped : Bool) (n : Nat) : Nat :=
  max n (if overlapped then (memoryTimes t).woi else (memoryTimes t).wo)

/-- S1, the address calculation of R172; the starred term is not affected by overlap. -/
def addressTimeS1 (t : MemoryType) (overlapped : Bool) (am : Mode) : Nat :=
  let common := 3 * (memoryTimes t).ra + 2 * orReadOverhead t overlapped 400
  match am with
  | .direct => common + orReadOverhead t overlapped 550
  | .indexed => common + orReadOverhead t overlapped 850
  | .pop => common + orReadOverhead t false 500 + (memoryTimes t).wa + orWriteOverhead t overlapped 400
  | .push => common + orReadOverhead t false 500 + (memoryTimes t).wa + orWriteOverhead t overlapped 400

/-- S2 (R172). -/
def addressTimeS2 (t : MemoryType) (overlapped : Bool) (am : Mode) : Nat := addressTimeS1 t overlapped am + 100

/-- S3 (R172). -/
def addressTimeS3 (t : MemoryType) (overlapped : Bool) (am : Mode) : Nat := addressTimeS1 t overlapped am + 300

/-- The times of R173. One instruction may have several, in the printed order: CMSS three, whose pairing with its three
outcomes is not certain (log entry 20); IMSS four: in line no skip, in line skip, interrupt no echo, interrupt
echo. For EIX the time is its own share, to which the executed instruction's is added (`eixTimes`). -/
def executionTimes (t : MemoryType) (ov : Bool) : Instr → List Nat
  | .ands am _ => [addressTimeS1 t ov am + (memoryTimes t).ra + orReadOverhead t ov 400]
  | .adds am _ => [addressTimeS1 t ov am + (memoryTimes t).ra + orReadOverhead t ov 400]
  | .subs am _ => [addressTimeS1 t ov am + (memoryTimes t).ra + orReadOverhead t ov 400]
  | .stas am _ => [addressTimeS2 t ov am + (memoryTimes t).wa + orWriteOverhead t ov 250]
  | .iors am _ => [addressTimeS1 t ov am + (memoryTimes t).ra + orReadOverhead t ov 400]
  | .xors am _ => [addressTimeS1 t ov am + (memoryTimes t).ra + orReadOverhead t ov 400]
  | .ldas am _ => [addressTimeS1 t ov am + (memoryTimes t).ra + orReadOverhead t ov 400]
  | .emas am _ => [addressTimeS1 t ov am + (memoryTimes t).ra + orReadOverhead t false 500 + (memoryTimes t).wa +
      orWriteOverhead t ov 550]
  | .slas am _ => [addressTimeS3 t ov am]
  | .cmss am _ => [550, 850, 1150].map (fun n => addressTimeS1 t ov am + (memoryTimes t).ra + orReadOverhead t ov n)
  | .imss am _ => [700, 1450, 850, 1600].map (fun n => addressTimeS1 t ov am + (memoryTimes t).ra +
      orReadOverhead t false 500 + (memoryTimes t).wa + orReadOverhead t ov n)
  | .ldxs am _ => [addressTimeS1 t ov am + (memoryTimes t).ra + orReadOverhead t ov 400]
  | .stxs am _ => [addressTimeS2 t ov am + (memoryTimes t).wa + orWriteOverhead t ov 250]
  | .jmps am _ => [addressTimeS3 t ov am]
  | .jsts am _ => [addressTimeS2 t ov am + (memoryTimes t).wa + orWriteOverhead t ov 550]
  | .eix => [(memoryTimes t).ra + orReadOverhead t ov 500]
  | .bsx => [(memoryTimes t).ra + orReadOverhead t ov 1300]
  | .bsa => [(memoryTimes t).ra + orReadOverhead t ov 1300]
  | .bcx => [(memoryTimes t).ra + orReadOverhead t ov 1300]
  | .bca => [(memoryTimes t).ra + orReadOverhead t ov 1300]

/-- EIX: "RA + 500/RO + normal time of instruction executed" (R173). -/
def eixTimes (t : MemoryType) (ov : Bool) (target : Instr) : List Nat :=
  (executionTimes t ov target).map (fun n => (memoryTimes t).ra + orReadOverhead t ov 500 + n)

end Sys2Proof.Machine
end

