-- ==== Sys2Proof/Tests/Slice0.lean ====
section
/-!
SUPPORT. Tests: well-formedness, decoding of words written out from spec/30_encoding.md, one-step vectors of
spec/95_test_vectors.md (named V<n>), and for each statement with hypotheses a witness that meets them.
-/

namespace Sys2Proof.Tests

open Sys2Proof Sys2Proof.Machine

/-! ## Well-formedness -/

theorem test_wf_accepts_bit15_clear : (Instr.adds .direct 0x7FFF).wf = true := by decide
theorem test_wf_refuses_bit15_set : (Instr.adds .direct 0x8000).wf = false := by decide
theorem test_memory_wf_refuses_unsorted : ¬ Memory.wf [(2, 1), (1, 1)] := by decide
theorem test_memory_wf_refuses_unlisted_value : ¬ Memory.wf [(1, 0)] := by decide
theorem test_config_wf_refuses_no_memory : ¬ Config.wf { Config.default with memWords := 0 } := by decide
theorem test_inv_refuses_uninstalled_entry :
    ¬ State.Inv { State.reset with mem := [(4096, 1)], cfg := { Config.default with memWords := 4096 } } := by decide

/-! ## Decoding: the words bit by bit, 000101 OP 110 AM (R51 to R53) and the five whole words (R57) -/

theorem test_decode_ands : decode 0b0001010000011000 0x0200 = .ok (.ands .direct 0x0200) := by decide
theorem test_decode_adds : decode 0b0001010000111010 0x0200 = .ok (.adds .pop 0x0200) := by decide
theorem test_decode_subs : decode 0b0001010001011001 0x0200 = .ok (.subs .indexed 0x0200) := by decide
theorem test_decode_stas : decode 0b0001010001111011 0x0200 = .ok (.stas .push 0x0200) := by decide
theorem test_decode_iors : decode 0b0001010010011000 0x0200 = .ok (.iors .direct 0x0200) := by decide
theorem test_decode_xors : decode 0b0001010010111001 0x0200 = .ok (.xors .indexed 0x0200) := by decide
theorem test_decode_ldas : decode 0b0001010011011010 0x0200 = .ok (.ldas .pop 0x0200) := by decide
theorem test_decode_emas : decode 0b0001010011111001 0x0200 = .ok (.emas .indexed 0x0200) := by decide
theorem test_decode_slas : decode 0b0001011000011000 0x0200 = .ok (.slas .direct 0x0200) := by decide
theorem test_decode_cmss : decode 0b0001011001011011 0x0200 = .ok (.cmss .push 0x0200) := by decide
theorem test_decode_imss : decode 0b0001011001111001 0x0200 = .ok (.imss .indexed 0x0200) := by decide
theorem test_decode_ldxs : decode 0b0001011010011010 0x0200 = .ok (.ldxs .pop 0x0200) := by decide
theorem test_decode_stxs : decode 0b0001011010111011 0x0200 = .ok (.stxs .push 0x0200) := by decide
theorem test_decode_jmps : decode 0b0001011011011000 0x0200 = .ok (.jmps .direct 0x0200) := by decide
theorem test_decode_jsts : decode 0b0001011011111011 0x0200 = .ok (.jsts .push 0x0200) := by decide
theorem test_decode_eix : decode 0b0000001000011000 0 = .ok .eix := by decide
theorem test_decode_bsx : decode 0b0000011010001000 0 = .ok .bsx := by decide
theorem test_decode_bsa : decode 0b0000011010001010 0 = .ok .bsa := by decide
theorem test_decode_bcx : decode 0b0000011011001000 0 = .ok .bcx := by decide
theorem test_decode_bca : decode 0b0000011011001010 0 = .ok .bca := by decide
theorem test_decode_op_10001 : decode 0x1638 0x0200 = .error .undefinedStackOpcode := by decide
theorem test_decode_bit8_set : decode 0x1518 0x0200 = .error .undefinedStackOpcode := by decide
theorem test_decode_not_stack_format : decode 0x141C 0x0200 = .error .notExtendedInstruction := by decide
theorem test_decode_zero_word : decode 0x0000 0 = .error .notExtendedInstruction := by decide
theorem test_decode_truncated : decodeWords [0x1438] = .error .truncated := by decide
theorem test_stackWord_is_skeleton_sum : stackWord 0b10111 .push = 0x1418 + (0b10111 <<< 5) + 3 := by decide
theorem test_table_word_one_word : decodeTableWord 16 0x1438 = some (.adds .direct 0) := by decide
theorem test_table_word_two_words : decodeTableWord 32 0x0200143A = some (.adds .pop 0x0200) := by decide

/-! ## One step: vectors of spec/95_test_vectors.md -/

/-- A machine at 0x0100 with two words there and data above them, by rising address. -/
def at0100 (w1 w2 a x : Word) (ov : Bool) (data : Memory) : State :=
  { a := a, x := x, p := 0x0100, ov := ov, mem := (0x0100, w1) :: (0x0101, w2) :: data, cfg := Config.default }

/-- The registers after a step, and the word at one address. -/
def after (k : Nat) (s : State) : Option (Word × Word × Addr × Bool × Word) :=
  (nextState? (step s)).map (fun t => (t.a, t.x, t.p, t.ov, t.mem.read k))

/-- The same machine with other parameters. -/
def State.withCfg (s : State) (c : Config) : State := { s with cfg := c }

/-- `BIT15_POLICY` = mask. -/
def masked : Config := { Config.default with bit15 := .mask }

theorem test_v21_adds_positive_overflow :
    after 0x0200 (at0100 0x1438 0x0200 0x7FFF 0x0000 false [(0x0200, 0x0300), (0x0300, 0x0001)]) =
      some (0x8000, 0x0000, 0x0102, true, 0x0300) := by decide
theorem test_v25_adds_pop :
    after 0x0200 (at0100 0x143A 0x0200 0x0001 0x0000 false [(0x0200, 0x0300), (0x0300, 0x0010)]) =
      some (0x0011, 0x0000, 0x0102, false, 0x0301) := by decide
theorem test_v30_subs_minimum_element :
    after 0x0200 (at0100 0x1458 0x0200 0xFFFF 0x0000 false [(0x0200, 0x0300), (0x0300, 0x8000)]) =
      some (0x7FFF, 0x0000, 0x0102, false, 0x0300) := by decide
theorem test_v31_subs_overflow :
    after 0x0200 (at0100 0x1458 0x0200 0x0000 0x0000 false [(0x0200, 0x0300), (0x0300, 0x8000)]) =
      some (0x8000, 0x0000, 0x0102, true, 0x0300) := by decide
theorem test_v37_ands_indexed :
    after 0x0200 (at0100 0x1419 0x0200 0xABCD 0x0003 false [(0x0200, 0x0300), (0x0303, 0x00FF)]) =
      some (0x00CD, 0x0003, 0x0102, false, 0x0300) := by decide
theorem test_v38_iors_push :
    after 0x0200 (at0100 0x149B 0x0200 0x0001 0x0000 false [(0x0200, 0x0300), (0x02FF, 0x8000)]) =
      some (0x8001, 0x0000, 0x0102, false, 0x02FF) := by decide
theorem test_v36_xors_clears_a :
    after 0x0200 (at0100 0x14B8 0x0200 0xF0F0 0x0000 true [(0x0200, 0x0300), (0x0300, 0xF0F0)]) =
      some (0x0000, 0x0000, 0x0102, true, 0x0300) := by decide
theorem test_v42_emas_pop :
    after 0x0300 (at0100 0x14FA 0x0200 0x1234 0x0000 false [(0x0200, 0x0300), (0x0300, 0xBEEF)]) =
      some (0xBEEF, 0x0000, 0x0102, false, 0x1234) := by decide
theorem test_v43_emas_push :
    after 0x02FF (at0100 0x14FB 0x0200 0x1234 0x0000 false [(0x0200, 0x0300), (0x02FF, 0xBEEF)]) =
      some (0xBEEF, 0x0000, 0x0102, false, 0x1234) := by decide
theorem test_v46_ldxs_indexed_uses_old_x :
    after 0x0200 (at0100 0x1699 0x0200 0x0000 0x0002 false [(0x0200, 0x0300), (0x0302, 0x0009)]) =
      some (0x0000, 0x0009, 0x0102, false, 0x0300) := by decide
theorem test_v54_stas_pop_onto_its_pointer :
    after 0x0200 (at0100 0x147A 0x0200 0x1234 0x0000 false [(0x0200, 0x0200)]) =
      some (0x1234, 0x0000, 0x0102, false, 0x0201) := by decide
theorem test_v55_stas_push_onto_its_pointer :
    after 0x0200 (at0100 0x147B 0x0200 0x1234 0x0000 false [(0x0200, 0x0201)]) =
      some (0x1234, 0x0000, 0x0102, false, 0x1234) := by decide
theorem test_v53_stxs_push :
    after 0x02FF (at0100 0x16BB 0x0200 0x1234 0x5555 false [(0x0200, 0x0300)]) =
      some (0x1234, 0x5555, 0x0102, false, 0x5555) := by decide
theorem test_v64_cmss_signed :
    after 0x0200 (at0100 0x1658 0x0200 0xFFFF 0x0000 false [(0x0200, 0x0300), (0x0300, 0x0001)]) =
      some (0xFFFF, 0x0000, 0x0102, false, 0x0300) := by decide
theorem test_v65_cmss_unsigned :
    after 0x0200 (State.withCfg (at0100 0x1658 0x0200 0xFFFF 0x0000 false [(0x0200, 0x0300), (0x0300, 0x0001)]) { Config.default with cmssSigned := false }) =
      some (0xFFFF, 0x0000, 0x0103, false, 0x0300) := by decide
theorem test_v71_imss_skip_keeps_ov :
    after 0x0300 (at0100 0x1678 0x0200 0x0000 0x0000 true [(0x0200, 0x0300), (0x0300, 0xFFFF)]) =
      some (0x0000, 0x0000, 0x0103, true, 0x0000) := by decide
theorem test_v70_imss_overflow :
    after 0x0300 (at0100 0x1678 0x0200 0x0000 0x0000 false [(0x0200, 0x0300), (0x0300, 0x7FFF)]) =
      some (0x0000, 0x0000, 0x0102, true, 0x8000) := by decide
theorem test_v75_jmps_indexed :
    after 0x0200 (at0100 0x16D9 0x0200 0x0000 0x0010 false [(0x0200, 0x0300)]) =
      some (0x0000, 0x0010, 0x0310, false, 0x0300) := by decide
theorem test_v77_jmps_push :
    after 0x0200 (at0100 0x16DB 0x0200 0x0000 0x0000 false [(0x0200, 0x0300)]) =
      some (0x0000, 0x0000, 0x02FF, false, 0x02FF) := by decide
theorem test_v78_jsts_direct :
    after 0x0300 (at0100 0x16F8 0x0200 0x0000 0x0000 false [(0x0200, 0x0300)]) =
      some (0x0000, 0x0000, 0x0301, false, 0x0102) := by decide
theorem test_v91_slas_indexed :
    after 0x0200 (at0100 0x1619 0x0200 0xAAAA 0x0003 false [(0x0200, 0x02FD)]) =
      some (0x0300, 0x0003, 0x0102, false, 0x02FD) := by decide
theorem test_v93_slas_push :
    after 0x0200 (at0100 0x161B 0x0200 0xAAAA 0x0000 false [(0x0200, 0x02FD)]) =
      some (0x02FC, 0x0000, 0x0102, false, 0x02FC) := by decide
theorem test_v100_bca :
    after 0x0100 (at0100 0x06CA 0xDEAD 0xFFFF 0x00F0 false []) =
      some (0xFF0F, 0x00F0, 0x0101, false, 0x06CA) := by decide
theorem test_v101_bcx :
    after 0x0100 (at0100 0x06C8 0xDEAD 0xFFFF 0x00F0 false []) =
      some (0xFFFF, 0xFF0F, 0x0101, false, 0x06C8) := by decide
theorem test_v102_bsa :
    after 0x0100 (at0100 0x068A 0xDEAD 0x0F00 0x00F0 false []) =
      some (0x0FF0, 0x00F0, 0x0101, false, 0x068A) := by decide
theorem test_v103_bsx :
    after 0x0100 (at0100 0x0688 0xDEAD 0x0F00 0x00F0 false []) =
      some (0x0F00, 0x0FF0, 0x0101, false, 0x0688) := by decide
theorem test_v109_eix_ldas_takes_spa_from_e_plus_2 :
    after 0x0300 (at0100 0x0218 0xDEAD 0x0000 0x0300 false [(0x0102, 0x0200), (0x0200, 0x0400), (0x0300, 0x14D8), (0x0301, 0x0999), (0x0400, 0x4321)]) =
      some (0x4321, 0x0300, 0x0103, false, 0x14D8) := by decide

/-! ## Refusals and parameters: vectors of spec/95_test_vectors.md -/

theorem test_v10_pop_at_the_top_masked :
    after 0x0200 (State.withCfg (at0100 0x14DA 0x0200 0x0000 0x0000 false [(0x0200, 0x7FFF), (0x7FFF, 0x0077)]) masked) =
      some (0x0077, 0x0000, 0x0102, false, 0x8000) := by decide
theorem test_v17_element_not_installed :
    refusal? (step (State.withCfg (at0100 0x14D8 0x0200 0x0000 0x0000 false [(0x0200, 0x1800), (0x1800, 0x0001)]) { Config.default with memWords := 4096 })) = some .nonexistentMemory := by decide
theorem test_v82_jsts_at_the_top :
    refusal? (step (at0100 0x16F8 0x0200 0x0000 0x0000 false [(0x0200, 0x7FFF)])) = some .pOutOfRange := by decide
theorem test_v118_eix_of_eix :
    refusal? (step (at0100 0x0218 0xDEAD 0x0000 0x0300 false [(0x0300, 0x0218)])) = some .eixNested := by decide
theorem test_v130_undefined_op :
    refusal? (step (at0100 0x1638 0x0200 0x0000 0x0000 false [(0x0200, 0x0300), (0x0300, 0x0001)])) = some .undefinedStackOpcode := by decide
theorem test_halt_addr_ends_the_run :
    fault? (step (State.withCfg (at0100 0x06CA 0 0 0 false []) { Config.default with haltAddr := some 0x0100 })) =
      some .runEnded := by decide
theorem test_reset_runs_no_program : refusal? (step State.reset) = some .notExtendedInstruction := by decide
theorem test_fetch_word_runs :
    (nextState? (step (State.reset.withFetchWord 16 0x1678))).map (fun t => t.p) = some 2 := by decide

/-! ## Timing: printed cells of Tables C-3 and C-4 (spec/70_reset_and_hazards.md R174, R175) -/

theorem test_c3_core980_direct : addressTimeS1 .core980 false .direct = 2940 := by decide
theorem test_c3_core1200_indexed : addressTimeS2 .core1200 false .indexed = 3750 := by decide
theorem test_c3_core1600_pop : addressTimeS3 .core1600 false .pop = 6700 := by decide
theorem test_c3_sc1200_push : addressTimeS1 .sc1200 false .push = 4800 := by decide
theorem test_c4_core980_imss :
    executionTimes .core980 false (.imss .direct 0) = [2940 + 1860, 2940 + 2610, 2940 + 2010, 2940 + 2760] := by decide
theorem test_c4_core1200_cmss :
    executionTimes .core1200 false (.cmss .direct 0) = [3600 + 1200, 3600 + 1250, 3600 + 1550] := by decide
theorem test_c4_core980_stas : executionTimes .core980 false (.stas .direct 0) = [3040 + 980] := by decide
theorem test_c4_sc1200_bca : executionTimes .sc1200 false .bca = [1800] := by decide
theorem test_eix_adds_target_time : eixTimes .core1200 false .bsa = [1200 + 1700] := by decide

/-! ## The assembler (spec/30_encoding.md R61 to R67; spec/95_test_vectors.md 1.1) -/

theorem test_assemble_push :
    (assembleLine (AsmState.start 0x0100) ⟨none, "STAS", [.value 0x0200, .character '-'], none⟩).map AsmState.code =
      some [(0x0100, 0x147B), (0x0101, 0x0200)] := by decide
theorem test_assemble_flagged_by_default :
    (assembleLine (AsmState.start 0x0100) ⟨some "L", "BSA", [], none⟩).map
      (fun st => (st.flagged, st.symbols, st.location)) = some ([0x0100], [("L", 0x0100)], 0x0101) := by decide
theorem test_assemble_mach_4 :
    (assemble (AsmState.start 0) [⟨none, "MACH", [.value 4], none⟩, ⟨none, "EIX", [], none⟩]).map
      (fun st => (st.flagged, st.code)) = some ([], [(0, 0x0218)]) := by decide
theorem test_table_2_1 :
    (List.range 8).map (fun n => (machAllows n .alpha16, machAllows n .lsi, machAllows n .extendedLsi2)) =
      [(false, false, false), (true, false, false), (false, true, false), (true, true, false),
       (false, false, true), (true, false, true), (false, true, true), (true, true, true)] := by decide

/-! ## Witnesses: for each statement with hypotheses, a machine and operands that meet all of them together -/

/-- Every addressing mode. -/
def allModes : List Mode := [.direct, .indexed, .pop, .push]

/-- A machine with 0x0300 in the pointer word 0x0200, and the element words at 0x02FF, 0x0300 and 0x0301 (X = 1). -/
def ready (p : Addr) (a m : Word) : State :=
  { a := a, x := 1, p := p, ov := true, mem := [(0x0200, 0x0300), (0x02FF, m), (0x0300, m), (0x0301, m)],
    cfg := Config.default }

/-- The same with the word `w` at the address X, for EIX, and `w2` at P + 2. -/
def pointed (p : Addr) (w w2 : Word) : State :=
  { (ready p 5 7) with x := 0x0400, mem := (((ready p 5 7).mem.write 0x0400 w).write (p.toNat + 2) w2) }

/-- Whether an outcome is a next state. -/
def goesOn (o : Host.Outcome State Fault Refusal) : Bool := (nextState? o).isSome

theorem witness_DecodedWordsAreItsEncoding :
    decodeWords [0x14FB, 0xFFFF, 0x1234] = .ok (.emas .push 0xFFFF, [0x1234]) ∧
      decodeWords [0x06CA, 0x1234] = .ok (.bca, [0x1234]) := by decide
theorem witness_OpcodeRowsAreDisjoint :
    (⟨"ADDS", 0x1438, 0xFFFC, 2⟩ : OpcodeRow) ∈ opcodeRows ∧
      (⟨"ADDS", 0x1438, 0xFFFC, 2⟩ : OpcodeRow).covers 0x143B = true := by decide
theorem witness_WordDecodesToTheRowThatCoversIt :
    (⟨"EIX", 0x0218, 0xFFFF, 1⟩ : OpcodeRow) ∈ opcodeRows ∧
      (⟨"EIX", 0x0218, 0xFFFF, 1⟩ : OpcodeRow).covers 0x0218 = true := by decide

/-- Two words at the last address that has a next one, and one word at the last address. -/
theorem witness_StepIsExecOfTheDecodedInstruction :
    (∃ s : State, ∃ i, s.p = 0x7FFE ∧ s.cfg.haltAddr ≠ some s.p ∧ s.installed s.p ∧ hasSecondWord (s.load s.p) = true ∧
      s.p.toNat + 1 ≤ 32767 ∧ s.installed (s.p + 1) ∧ decode (s.load s.p) (s.load (s.p + 1)) = .ok i) ∧
    (∃ s : State, ∃ i, s.p = 0x7FFF ∧ s.cfg.haltAddr ≠ some s.p ∧ s.installed s.p ∧ hasSecondWord (s.load s.p) = false ∧
      decode (s.load s.p) 0 = .ok i) :=
  ⟨⟨{ ready 0x7FFE 0 0 with mem := [(0x7FFE, 0x16D8), (0x7FFF, 0x0200)] }, .jmps .direct 0x0200, by decide⟩,
    ⟨{ ready 0x7FFF 0 0 with mem := [(0x7FFF, 0x06CA)] }, .bca, by decide⟩⟩
theorem witness_StepRunsTheEncodedInstruction :
    (at0100 0x147B 0x0200 0 0 false []).cfg.haltAddr ≠ some (at0100 0x147B 0x0200 0 0 false []).p ∧
    ∀ (k : Nat) (w : Word), (encode (.stas .push 0x0200))[k]? = some w →
      0x0100 + k ≤ 32767 ∧ 0x0100 + k < Config.default.memWords ∧
        (at0100 0x147B 0x0200 0 0 false []).mem.read (0x0100 + k) = w := by
  refine ⟨by decide, fun k w h => ?_⟩
  rcases k with _ | _ | k
  · obtain rfl : stackWord 0b00011 .push = w := Option.some.inj h
    decide
  · obtain rfl : (0x0200 : Word) = w := Option.some.inj h
    decide
  · cases h
theorem witness_StepFaultsExactlyAtHaltAddr :
    step (State.withCfg (ready 0x0100 0 0) { Config.default with haltAddr := some 0x0100 }) = .fault .runEnded := rfl

/-- A word of each of the two kinds that no row covers. -/
theorem witness_UncoveredWordsAreRefusedByName :
    (at0100 0x1638 0 0 0 false []).cfg.haltAddr ≠ some 0x0100 ∧ (at0100 0x1638 0 0 0 false []).installed 0x0100 ∧
      (at0100 0x1638 0 0 0 false []).load 0x0100 = 0x1638 ∧ (opcodeRows.all fun r => !r.covers 0x1638) = true ∧
      (opcodeRows.all fun r => !r.covers 0x141C) = true := by decide

/-- The causes that the vectors above do not show are bit 15, the top of memory and the undefined words. -/
theorem witness_StepRefusalsHaveTheirCause :
    step (at0100 0x14D8 0x8000 0 0 false []) = .refused .addressBit15Set ∧
    step { (ready 0x7FFF 0 0) with mem := [(0x7FFF, 0x06CA)] } = .refused .pOutOfRange ∧
    step (at0100 0x1638 0 0 0 false []) = .refused .undefinedStackOpcode := ⟨rfl, rfl, rfl⟩

theorem witness_AddsAddsElementToA :
    ∀ am ∈ allModes, (ready 0x7FFD 0x7FFF 1).elementReady am 0x0200 ∧ (ready 0x7FFD 0x7FFF 1).p.toNat + 2 ≤ 32767 := by decide
theorem witness_SubsSubtractsElementFromA :
    ∀ am ∈ allModes, (ready 0x7FFD 0x7FFF 0x8000).elementReady am 0x0200 ∧ (ready 0x7FFD 0x7FFF 0x8000).p.toNat + 2 ≤ 32767 := by decide
theorem witness_LogicalStackInstructionsCombineElementWithA :
    ∀ am ∈ allModes, (ready 0x7FFD 0x7FFF 0xFF00).elementReady am 0x0200 ∧ (ready 0x7FFD 0x7FFF 0xFF00).p.toNat + 2 ≤ 32767 := by decide
theorem witness_EmasExchangesElementAndA :
    ∀ am ∈ allModes, (ready 0x7FFD 0x7FFF 1).elementReady am 0x0200 ∧ (ready 0x7FFD 0x7FFF 1).p.toNat + 2 ≤ 32767 := by decide
theorem witness_LoadsCompleteInEveryMode :
    ∀ am ∈ allModes, (ready 0x7FFD 0x7FFF 1).elementReady am 0x0200 ∧ (ready 0x7FFD 0x7FFF 1).p.toNat + 2 ≤ 32767 := by decide
theorem witness_StoresWriteRegisterToElement :
    ∀ am ∈ allModes, (ready 0x7FFD 0x7FFF 1).elementReady am 0x0200 ∧ (ready 0x7FFD 0x7FFF 1).p.toNat + 2 ≤ 32767 := by decide
theorem witness_LdasLoadsElementIntoA :
    stackOperand .pop 0x0200 (ready 0x7FFD 0 9) = .ok ⟨0x0200, 0x0300, ready 0x7FFD 0 9, some 0x0301⟩ ∧
      (ready 0x7FFD 0 9).installed 0x0300 ∧ (ready 0x7FFD 0 9).p.toNat + 2 ≤ 32767 := by decide
theorem witness_LdxsLoadsElementIntoX :
    stackOperand .indexed 0x0200 (ready 0x7FFD 0 9) = .ok ⟨0x0200, 0x0301, ready 0x7FFD 0 9, none⟩ ∧
      (ready 0x7FFD 0 9).installed 0x0301 ∧ (ready 0x7FFD 0 9).p.toNat + 2 ≤ 32767 := by decide

/-- The three outcomes, each with P at the highest value that admits it. -/
theorem witness_CmssSkipsByTheComparison :
    (∀ am ∈ allModes, (ready 0x7FFB 5 5).elementReady am 0x0200 ∧ (ready 0x7FFB 5 5).a = (ready 0x7FFB 5 5).element am 0x0200) ∧
    ((ready 0x7FFB 5 5).p.toNat + 4 ≤ 32767 ∧ (ready 0x7FFD 4 5).p.toNat + 2 ≤ 32767 ∧ (ready 0x7FFC 5 4).p.toNat + 3 ≤ 32767) ∧
    ((ready 0x7FFD 4 5).elementReady .pop 0x0200 ∧
      (ready 0x7FFD 4 5).a.toInt < ((ready 0x7FFD 4 5).element .pop 0x0200).toInt) ∧
    ((ready 0x7FFC 5 4).elementReady .push 0x0200 ∧
      ((ready 0x7FFC 5 4).element .push 0x0200).toInt < (ready 0x7FFC 5 4).a.toInt) := by decide
theorem witness_CmssOrderAgreesOnEqualSigns :
    ∀ am ∈ allModes, (ready 0x0100 0x8000 0xFFFF).cfg.cmssSigned = true ∧ (ready 0x0100 0x8000 0xFFFF).elementReady am 0x0200 ∧
      (ready 0x0100 0x8000 0xFFFF).a.msb = ((ready 0x0100 0x8000 0xFFFF).element am 0x0200).msb ∧
      goesOn (exec (.cmss am 0x0200) (ready 0x0100 0x8000 0xFFFF)) = true := by decide
theorem witness_ImssIncrementsAndSkipsOnZero :
    ∀ am ∈ allModes,
      (ready 0x7FFC 0 0xFFFF).elementReady am 0x0200 ∧ (ready 0x7FFC 0 0xFFFF).element am 0x0200 = 0xFFFF ∧
        (ready 0x7FFC 0 0xFFFF).p.toNat + 3 ≤ 32767 ∧
        (ready 0x7FFD 0 0x7FFF).elementReady am 0x0200 ∧ (ready 0x7FFD 0 0x7FFF).element am 0x0200 ≠ 0xFFFF ∧
        (ready 0x7FFD 0 0x7FFF).p.toNat + 2 ≤ 32767 := by decide
theorem witness_JmpsLoadsPWithElementAddress :
    stackOperand .push 0x0200 (ready 0x7FFE 0 9) =
      .ok ⟨0x0200, 0x02FF, (ready 0x7FFE 0 9).store 0x0200 0x02FF, none⟩ := by decide
theorem witness_JmpsAndSlasUseTheModesElementAddress :
    ∀ c ∈ [(Mode.direct, (0x0300 : Addr)), (.indexed, 0x0301), (.pop, 0x0300), (.push, 0x02FF)],
      (ready 0x7FFD 0 0).stackReady c.1 0x0200 ∧ (ready 0x7FFD 0 0).elementAddr c.1 0x0200 = c.2 ∧
        (ready 0x7FFD 0 0).p.toNat + 2 ≤ 32767 ∧ (ready 0x7FFD 0 0).cfg.slasNondirect = .sea := by decide

/-- The element at the highest address JSTS admits. -/
theorem witness_JstsStoresReturnAddressAndJumps :
    ∀ c ∈ [(Mode.direct, (0x7FFE : Word)), (.indexed, 0x7FFD), (.pop, 0x7FFE), (.push, 0x7FFF)],
      let s : State := { ready 0x7FFD 0 0 with mem := [(0x0200, c.2)] }
      s.elementReady c.1 0x0200 ∧ s.p.toNat + 2 ≤ 32767 ∧ (s.elementAddr c.1 0x0200).toNat + 1 = 32767 := by decide
theorem witness_BitClearResults : (ready 0x7FFE 0xFFFF 0).p.toNat + 1 ≤ 32767 := by decide
theorem witness_BitSetResults : (ready 0x7FFE 0x0F00 0).p.toNat + 1 ≤ 32767 := by decide

theorem witness_EixTakesSecondWordFromEixPlusTwo :
    (pointed 0x7FFC 0x14D8 0x0200).p.toNat + 2 ≤ 32767 ∧ (pointed 0x7FFC 0x14D8 0x0200).admits 0x0400 ∧
      (pointed 0x7FFC 0x14D8 0x0200).installed (low15 (pointed 0x7FFC 0x14D8 0x0200).x) ∧
      hasSecondWord ((pointed 0x7FFC 0x14D8 0x0200).load 0x0400) = true ∧
      (pointed 0x7FFC 0x14D8 0x0200).installed ((pointed 0x7FFC 0x14D8 0x0200).p + 2) ∧
      decode ((pointed 0x7FFC 0x14D8 0x0200).load 0x0400) ((pointed 0x7FFC 0x14D8 0x0200).load 0x7FFE) =
        .ok (.ldas .direct 0x0200) ∧ goesOn (exec .eix (pointed 0x7FFC 0x14D8 0x0200)) = true := by decide
theorem witness_EixOfOneWordTargetsCompletes :
    (ready 0x7FFD 5 7).p.toNat + 2 ≤ 32767 ∧ State.admits (ready 0x7FFD 5 7) 0x0400 ∧
      State.installed (ready 0x7FFD 5 7) (low15 0x0400) ∧
      ([(0x06CA : Word), 0x06C8, 0x068A, 0x0688].map fun w =>
        State.load { ready 0x7FFD 5 7 with x := 0x0400, mem := [(0x0400, w)] } (low15 0x0400)) =
        [0x06CA, 0x06C8, 0x068A, 0x0688] := by decide

/-- The machine whose EIX at 0x7FFA executes `w`, with SPA at EIX + 2. -/
def eixAtTop (w : Word) : State :=
  { ready 0x7FFA 5 7 with x := 0x0400, mem := [(0x0200, 0x0300), (0x0400, w), (0x7FFC, 0x0200)] }

/-- The hypotheses on `eixAtTop w` that all four clauses share. -/
abbrev EixReady (w : Word) : Prop :=
  (eixAtTop w).p.toNat + 5 ≤ 32767 ∧ (eixAtTop w).admits (eixAtTop w).x ∧ (eixAtTop w).installed (low15 (eixAtTop w).x) ∧
    (eixAtTop w).installed ((eixAtTop w).p + 2) ∧ (eixAtTop w).load ((eixAtTop w).p + 2) = 0x0200 ∧
    (eixAtTop w).elementReady .direct 0x0200 ∧ (eixAtTop w).load (low15 (eixAtTop w).x) = w ∧
    ((eixAtTop w).elementAddr .direct 0x0200).toNat + 1 ≤ 32767

theorem witness_EixTargetsModifyPRelativeToEixPlusOne :
    EixReady 0x1658 ∧ EixReady 0x1678 ∧ EixReady 0x16F8 ∧ EixReady 0x16D8 := by
  refine ⟨?_, ?_, ?_, ?_⟩ <;> decide
theorem witness_EixLeavesWhatItsTargetLeaves :
    goesOn (exec .eix (pointed 0x0100 0x06CA 0)) = true ∧
      goesOn (exec .eix (pointed 0x0100 0x143B 0x0200)) = true := by decide

/-- One machine for each of the four clauses. -/
theorem witness_EixRefusals :
    32767 < (pointed 0x7FFF 0 0).p.toNat + 1 ∧
    ((pointed 0x7FFE 0 0).p.toNat + 1 ≤ 32767 ∧
      ¬ State.admits { pointed 0x7FFE 0 0 with x := 0x8000 } 0x8000) ∧
    (State.admits (pointed 0x7FFE 0 0) 0x0400 ∧
      ¬ State.installed (State.withCfg (pointed 0x0100 0 0) { Config.default with memWords := 0x0400 }) (low15 0x0400)) ∧
    ((pointed 0x7FFE 0x0218 0).installed (low15 (pointed 0x7FFE 0x0218 0).x) ∧
      (pointed 0x7FFE 0x0218 0).load (low15 (pointed 0x7FFE 0x0218 0).x) = 0x0218) := by decide

/-- One machine for each part of `stackReady` that fails: P, SPA, the pointer's place, the element's address, the pointer that
POP restores. -/
theorem witness_UnreadyStackOperandIsRefused :
    (Instr.adds .pop 0x0200).operands? = some (.pop, 0x0200) ∧ ¬ (ready 0x7FFF 0 0).stackReady .pop 0x0200 ∧
    ¬ (ready 0x0100 0 0).stackReady .pop 0x8200 ∧
    ¬ (State.withCfg (ready 0x0100 0 0) { Config.default with memWords := 0x0200 }).stackReady .pop 0x0200 ∧
    ¬ State.stackReady { ready 0x0100 0 0 with mem := [(0x0200, 0x8000)] } .direct 0x0200 ∧
    ¬ State.stackReady { ready 0x0100 0 0 with mem := [(0x0200, 0x7FFF)] } .pop 0x0200 := by decide

/-- 0x0300 words installed: the pointer is, an element at 0x0300 or above is not. -/
theorem witness_UninstalledElementIsRefused :
    ∀ am ∈ [Mode.direct, .indexed, .pop],
      (State.withCfg (ready 0x7FFD 0 0) { Config.default with memWords := 0x0300 }).stackReady am 0x0200 ∧
      ¬ State.installed (State.withCfg (ready 0x7FFD 0 0) { Config.default with memWords := 0x0300 })
        ((ready 0x7FFD 0 0).elementAddr am 0x0200) ∧
      ((ready 0x7FFD 0 0).elementAddr am 0x0200).toNat + 1 ≤ 32767 := by decide

/-- A machine for each clause, at the lowest P that the clause stops. -/
theorem witness_PBeyondTopIsRefused :
    ((ready 0x7FFE 0 0).elementReady .push 0x0200 ∧ 32767 < (ready 0x7FFE 0 0).p.toNat + 2) ∧
    (State.elementReady { ready 0x0100 0 0 with mem := [(0x0200, 0x7FFF)] } .direct 0x0200 ∧
      State.elementAddr { ready 0x0100 0 0 with mem := [(0x0200, 0x7FFF)] } .direct 0x0200 = 32767) ∧
    ((ready 0x7FFD 0 0xFFFF).elementReady .pop 0x0200 ∧ (ready 0x7FFD 0 0xFFFF).element .pop 0x0200 = 0xFFFF ∧
      32767 < (ready 0x7FFD 0 0xFFFF).p.toNat + 3) ∧
    ((ready 0x7FFC 5 5).elementReady .indexed 0x0200 ∧ (ready 0x7FFC 5 5).a = (ready 0x7FFC 5 5).element .indexed 0x0200 ∧
      32767 < (ready 0x7FFC 5 5).p.toNat + 4) ∧
    32767 < (ready 0x7FFF 0 0).p.toNat + 1 := by decide
/-- The same for CMSS with A greater, SLAS, the fetch of a second word, and EIX. -/
theorem witness_PBeyondTopIsRefused_rest :
    ((ready 0x7FFD 5 4).elementReady .pop 0x0200 ∧ (ready 0x7FFD 5 4).cfg.cmssSigned = true ∧
      ((ready 0x7FFD 5 4).element .pop 0x0200).toInt < (ready 0x7FFD 5 4).a.toInt ∧ 32767 < (ready 0x7FFD 5 4).p.toNat + 3) ∧
    ((ready 0x7FFE 0 0).stackReady .push 0x0200 ∧ (ready 0x7FFE 0 0).cfg.slasNondirect = .sea ∧
      32767 < (ready 0x7FFE 0 0).p.toNat + 2) ∧
    (State.installed { ready 0x7FFF 0 0 with mem := [(0x7FFF, 0x16D8)] } 0x7FFF ∧
      hasSecondWord (State.load { ready 0x7FFF 0 0 with mem := [(0x7FFF, 0x16D8)] } 0x7FFF) = true) ∧
    ((pointed 0x7FFE 0x14D8 0).admits (pointed 0x7FFE 0x14D8 0).x ∧ 32767 < (pointed 0x7FFE 0x14D8 0).p.toNat + 2 ∧
      hasSecondWord ((pointed 0x7FFE 0x14D8 0).load (low15 (pointed 0x7FFE 0x14D8 0).x)) = true ∧
      (pointed 0x7FFE 0x06CA 0).load (low15 (pointed 0x7FFE 0x06CA 0).x) = 0x06CA) := by decide
theorem witness_SlasRefusedOutsideDirectMode :
    (State.withCfg (ready 0x0100 0 0) { Config.default with slasNondirect := .refuse }).cfg.slasNondirect = .refuse ∧
      Mode.push ≠ .direct := by decide

theorem witness_ArithmeticFrame :
    ∀ am ∈ allModes, ∀ i ∈ [Instr.adds am 0x0200, Instr.subs am 0x0200],
      goesOn (exec i (ready 0x0100 5 7)) = true ∧ (stackOperand am 0x0200 (ready 0x0100 5 7)).isOk = true := by decide
theorem witness_LogicalAndLoadAFrame :
    ∀ am ∈ allModes, ∀ i ∈ [Instr.ands am 0x0200, Instr.iors am 0x0200, Instr.xors am 0x0200, Instr.ldas am 0x0200, Instr.slas am 0x0200],
      goesOn (exec i (ready 0x0100 5 7)) = true ∧ (stackOperand am 0x0200 (ready 0x0100 5 7)).isOk = true := by decide
theorem witness_LdxsFrame :
    ∀ am ∈ allModes, ∀ i ∈ [Instr.ldxs am 0x0200],
      goesOn (exec i (ready 0x0100 5 7)) = true ∧ (stackOperand am 0x0200 (ready 0x0100 5 7)).isOk = true := by decide
theorem witness_CompareAndJumpFrame :
    ∀ am ∈ allModes, ∀ i ∈ [Instr.cmss am 0x0200, Instr.jmps am 0x0200],
      goesOn (exec i (ready 0x0100 5 7)) = true ∧ (stackOperand am 0x0200 (ready 0x0100 5 7)).isOk = true := by decide
theorem witness_StoreFrame :
    ∀ am ∈ allModes, ∀ i ∈ [Instr.stas am 0x0200, Instr.stxs am 0x0200, Instr.jsts am 0x0200],
      goesOn (exec i (ready 0x0100 5 7)) = true ∧ (stackOperand am 0x0200 (ready 0x0100 5 7)).isOk = true := by decide
theorem witness_ExchangeAndIncrementFrame :
    ∀ am ∈ allModes, ∀ i ∈ [Instr.emas am 0x0200, Instr.imss am 0x0200],
      goesOn (exec i (ready 0x0100 5 7)) = true ∧ (stackOperand am 0x0200 (ready 0x0100 5 7)).isOk = true := by decide
theorem witness_RegisterChangeFrame :
    ∀ i ∈ [Instr.bca, .bsa, .bcx, .bsx], goesOn (exec i (ready 0x0100 5 7)) = true := by decide
theorem witness_MemoryChangesOnlyWhereAccessesWrite :
    Instr.imss .push 0x0200 ≠ .eix ∧ goesOn (exec (.imss .push 0x0200) (ready 0x0100 5 7)) = true ∧
      dataAccesses (.imss .push 0x0200) (ready 0x0100 5 7) =
        .ok [⟨.read, 0x0200⟩, ⟨.write, 0x0200⟩, ⟨.read, 0x02FF⟩, ⟨.write, 0x02FF⟩] := by decide

/-- The four modes with an element away from the pointer, and POP with the element on it. -/
theorem witness_EveryModeLeavesItsPointer :
    (ready 0x0100 5 7).mem.wf ∧
    (∀ am ∈ allModes, (Instr.stas am 0x0200).operands? = some (am, 0x0200) ∧
      goesOn (exec (.stas am 0x0200) (ready 0x0100 5 7)) = true ∧
      (ready 0x0100 5 7).elementAddr am 0x0200 ≠ low15 0x0200) ∧
    goesOn (exec (.stas .pop 0x0200) { ready 0x0100 5 7 with mem := [(0x0200, 0x0200)] }) = true := by decide
theorem witness_PopReturnsWhatPushStored :
    ∃ s t u : State, s.mem.wf ∧ exec (.stas .push 0x0200) s = .next t ∧ s.elementAddr .push 0x0200 ≠ low15 0x0200 ∧
      s.admits (s.pointerWord 0x0200) ∧ u.mem = t.mem ∧ u.cfg = t.cfg ∧ u.p.toNat + 2 ≤ 32767 :=
  ⟨ready 0x0100 5 7, _, { ready 0x7FFD 5 7 with mem := [(0x0200, 0x02FF), (0x02FF, 5), (0x0300, 7), (0x0301, 7)] }, by decide,
    rfl, by decide, by decide, by decide, by decide, by decide⟩
theorem witness_JmpsReturnsToTheCaller :
    ∃ s t u : State, s.mem.wf ∧ exec (.jsts .direct 0x0200) s = .next t ∧ u.cfg = t.cfg ∧ u.p.toNat + 1 ≤ 32767 ∧
      u.load (s.elementAddr .direct 0x0200) = t.load (s.elementAddr .direct 0x0200) :=
  ⟨ready 0x0100 5 7, _, { ready 0x7FFE 0 0 with mem := [(0x0300, 0x0102)] }, by decide, rfl, by decide, by decide, by decide⟩

theorem witness_StepKeepsTheInvariant :
    State.Inv (at0100 0x143B 0x0200 1 0 false [(0x0200, 0x0300)]) ∧
      goesOn (step (at0100 0x143B 0x0200 1 0 false [(0x0200, 0x0300)])) = true := by decide
theorem witness_NoStepClearsOv :
    goesOn (step (at0100 0x143B 0x0200 1 0 true [(0x0200, 0x0300)])) = true ∧
      (at0100 0x143B 0x0200 1 0 true [(0x0200, 0x0300)]).ov = true := by decide

/-- OV changes under ADDS, and under EIX of ADDS. -/
theorem witness_OnlyAddsSubsImssTouchOv :
    (nextState? (exec (.adds .direct 0x0200) { ready 0x0100 0x7FFF 1 with ov := false })).map State.ov = some true ∧
    (nextState? (exec .eix { pointed 0x0100 0x1438 0x0200 with ov := false, a := 0x7FFF })).map State.ov = some true := by
  decide
theorem witness_StepWritesAtMostOneRegister :
    goesOn (step (at0100 0x06CA 0 0xFFFF 0xF0 false [])) = true := by decide

/-- A base machine on which every word moves P on by one. -/
theorem witness_BaseStepGivesBaseWordsTheirMeaning :
    let base : BaseStep := fun s _ loc => some (s.setP (loc + 1))
    (decode ((at0100 0 0 0 0 false []).load 0x0100) 0 = .error .notExtendedInstruction ∧
      base (at0100 0 0 0 0 false []) 0 0x0100 = some ((at0100 0 0 0 0 false []).setP 0x0101)) ∧
    ((at0100 0x0218 0 0 0x0300 false []).load 0x0100 = 0x0218 ∧ (at0100 0x0218 0 0 0x0300 false []).p.toNat + 1 ≤ 32767 ∧
      (at0100 0x0218 0 0 0x0300 false []).admits 0x0300 ∧ (at0100 0x0218 0 0 0x0300 false []).installed (low15 0x0300) ∧
      decode ((at0100 0x0218 0 0 0x0300 false []).load (low15 0x0300)) 0 = .error .notExtendedInstruction ∧
      base (at0100 0x0218 0 0 0x0300 false []) 0 0x0101 = some ((at0100 0x0218 0 0 0x0300 false []).setP 0x0102)) := by
  decide
theorem witness_AssembledLineDecodesToItsMnemonic :
    (assembleLine (AsmState.start 0x7FFE) ⟨some "LOOP", "CMSS", [.value 0x7FFF, .character '@'], none⟩).isSome = true ∧
      (assembleLine (AsmState.start 0) ⟨none, "BCX", [], some "clear"⟩).isSome = true ∧ "CMSS" ≠ "MACH" := by decide
theorem witness_EveryInstructionHasItsLine : (Instr.emas .push 0x7FFF).wf = true ∧ Instr.bsa.wf = true := by decide
theorem witness_FlaggedInstructionsAreAssembledCorrectly :
    (assembleLine { AsmState.start 0 with machFlag := 4 } ⟨none, "EIX", [], none⟩).map AsmState.flagged = some [] ∧
      (assembleLine (AsmState.start 0) ⟨none, "EIX", [], none⟩).map AsmState.flagged = some [0] := by decide

end Sys2Proof.Tests
end

/-! ## When each instruction completes, and with what -/

section
namespace Sys2Proof.Machine

/-! Each part of an instruction's computation, taken off its front: when it answers, and what the rest then starts from. -/

theorem pure_eq_ok_iff {α : Type} (a b : α) : (pure a : Except Refusal α) = .ok b ↔ b = a := by
  simp only [pure, Except.pure, Except.ok.injEq, eq_comm]

theorem advance_bind_eq_ok_iff {β : Type} (k : Addr) (n : Nat) (f : Addr → Except Refusal β) (b : β) :
    (advance k n >>= f) = .ok b ↔ k.toNat + n ≤ 32767 ∧ f (k + BitVec.ofNat 15 n) = .ok b := by
  simp only [bind_eq_ok_iff, advance_eq_ok_iff, and_assoc, exists_and_left, exists_eq_left]

theorem writeWord_bind_eq_ok_iff {β : Type} (s : State) (k : Addr) (v : Word) (f : State → Except Refusal β) (b : β) :
    (writeWord s k v >>= f) = .ok b ↔ s.installed k ∧ f (s.store k v) = .ok b := by
  simp only [bind_eq_ok_iff, writeWord_eq_ok_iff, and_assoc, exists_and_left, exists_eq_left]

theorem stackOperand_bind_eq_ok_iff {β : Type} (am : Mode) (w2 : Word) (s : State) (f : StackAccess → Except Refusal β)
    (b : β) : (stackOperand am w2 s >>= f) = .ok b ↔ s.stackReady am w2 ∧ f (s.access am w2) = .ok b := by
  simp only [bind_eq_ok_iff, stackOperand_eq_ok_iff, and_assoc, exists_and_left, exists_eq_left]

theorem readElement_bind_eq_ok_iff {β : Type} (am : Mode) (w2 : Word) (s : State)
    (f : StackAccess × Word → Except Refusal β) (b : β) :
    (readElement am w2 s >>= f) = .ok b ↔ s.elementReady am w2 ∧ f (s.access am w2, s.element am w2) = .ok b := by
  simp only [bind_eq_ok_iff, readElement_eq_ok_iff, and_assoc, exists_and_left, exists_eq_left]

@[simp] theorem State.access_st (s : State) (am : Mode) (w2 : Word) : (s.access am w2).st = s.pushed am w2 := rfl
@[simp] theorem State.access_sea (s : State) (am : Mode) (w2 : Word) : (s.access am w2).sea = s.elementAddr am w2 := rfl

/-- The PUSH write-back leaves the installed memory as it is. -/
theorem State.pushed_installed (s : State) (am : Mode) (w2 : Word) (k : Addr) :
    (s.pushed am w2).installed k ↔ s.installed k := by
  rw [State.installed, State.pushed_cfg]

/-- LDAS (R91). -/
theorem execLdas_eq_next_iff (am : Mode) (w2 : Word) (s t : State) :
    execLdas am w2 s = .next t ↔ s.elementReady am w2 ∧ s.p.toNat + 2 ≤ 32767 ∧
      t = (s.popped ((s.pushed am w2).setA (s.element am w2)) am w2).setP (s.p + 2) := by
  rw [execLdas, outcome_eq_next_iff, readElement_bind_eq_ok_iff, advance_bind_eq_ok_iff, pure_eq_ok_iff, restore_access]
  rfl

/-- LDXS (R92). -/
theorem execLdxs_eq_next_iff (am : Mode) (w2 : Word) (s t : State) :
    execLdxs am w2 s = .next t ↔ s.elementReady am w2 ∧ s.p.toNat + 2 ≤ 32767 ∧
      t = (s.popped ((s.pushed am w2).setX (s.element am w2)) am w2).setP (s.p + 2) := by
  rw [execLdxs, outcome_eq_next_iff, readElement_bind_eq_ok_iff, advance_bind_eq_ok_iff, pure_eq_ok_iff, restore_access]
  rfl

/-- CMSS (R100). -/
theorem execCmss_eq_next_iff (am : Mode) (w2 : Word) (s t : State) :
    execCmss am w2 s = .next t ↔
      s.elementReady am w2 ∧ s.p.toNat + compareAdvance s.cfg s.a (s.element am w2) ≤ 32767 ∧
      t = (s.popped (s.pushed am w2) am w2).setP (s.p + BitVec.ofNat 15 (compareAdvance s.cfg s.a (s.element am w2))) := by
  rw [execCmss, outcome_eq_next_iff, readElement_bind_eq_ok_iff, advance_bind_eq_ok_iff, pure_eq_ok_iff, restore_access,
    State.access_st]

/-- EMAS (R90): the element gets the old A, A the old element. -/
theorem execEmas_eq_next_iff (am : Mode) (w2 : Word) (s t : State) :
    execEmas am w2 s = .next t ↔ s.elementReady am w2 ∧ s.p.toNat + 2 ≤ 32767 ∧
      t = (s.popped (((s.pushed am w2).store (s.elementAddr am w2) s.a).setA (s.element am w2)) am w2).setP
        (s.p + 2) := by
  rw [execEmas, outcome_eq_next_iff, readElement_bind_eq_ok_iff, writeWord_bind_eq_ok_iff, advance_bind_eq_ok_iff,
    pure_eq_ok_iff, restore_access, State.access_st, State.access_sea, State.pushed_installed, ← and_assoc,
    and_iff_left_of_imp And.right]
  rfl

/-- IMSS (R101). -/
theorem execImss_eq_next_iff (am : Mode) (w2 : Word) (s t : State) :
    execImss am w2 s = .next t ↔
      s.elementReady am w2 ∧ s.p.toNat + incrementAdvance (s.element am w2 + 1) ≤ 32767 ∧
      t = (s.popped (((s.pushed am w2).store (s.elementAddr am w2) (s.element am w2 + 1)).raiseOv
        (incOverflows (s.element am w2))) am w2).setP
          (s.p + BitVec.ofNat 15 (incrementAdvance (s.element am w2 + 1))) := by
  rw [execImss, outcome_eq_next_iff, readElement_bind_eq_ok_iff, writeWord_bind_eq_ok_iff, advance_bind_eq_ok_iff,
    pure_eq_ok_iff, restore_access, State.access_st, State.access_sea, State.pushed_installed, ← and_assoc,
    and_iff_left_of_imp And.right]

/-- JMPS (R102). -/
theorem execJmps_eq_next_iff (am : Mode) (w2 : Word) (s t : State) :
    execJmps am w2 s = .next t ↔
      s.stackReady am w2 ∧ t = (s.popped (s.pushed am w2) am w2).setP (s.elementAddr am w2) := by
  rw [execJmps, outcome_eq_next_iff, stackOperand_bind_eq_ok_iff, pure_eq_ok_iff, restore_access, State.access_st,
    State.access_sea]

/-- JSTS (R103). -/
theorem execJsts_eq_next_iff (am : Mode) (w2 : Word) (s t : State) :
    execJsts am w2 s = .next t ↔
      s.elementReady am w2 ∧ s.p.toNat + 2 ≤ 32767 ∧ (s.elementAddr am w2).toNat + 1 ≤ 32767 ∧
      t = (s.popped ((s.pushed am w2).store (s.elementAddr am w2) (zext16 (s.p + 2))) am w2).setP
        (s.elementAddr am w2 + 1) := by
  rw [execJsts, outcome_eq_next_iff, stackOperand_bind_eq_ok_iff, advance_bind_eq_ok_iff, advance_bind_eq_ok_iff,
    writeWord_bind_eq_ok_iff, pure_eq_ok_iff, restore_access, State.access_st, State.access_sea, State.pushed_installed]
  exact ⟨fun ⟨hready, hp, hsea, hin, ht⟩ => ⟨⟨hready, hin⟩, hp, hsea, ht⟩,
    fun ⟨⟨hready, hin⟩, hp, hsea, ht⟩ => ⟨hready, hp, hsea, hin, ht⟩⟩

theorem checkSlasMode_eq_ok_iff (c : Config) (am : Mode) (u : Unit) :
    checkSlasMode c am = .ok u ↔ am = .direct ∨ c.slasNondirect = .sea := by
  unfold checkSlasMode
  cases am <;> cases c.slasNondirect <;> simp

/-- SLAS (R110). -/
theorem execSlas_eq_next_iff (am : Mode) (w2 : Word) (s t : State) :
    execSlas am w2 s = .next t ↔
      (am = .direct ∨ s.cfg.slasNondirect = .sea) ∧ s.stackReady am w2 ∧ s.p.toNat + 2 ≤ 32767 ∧
      t = (s.popped ((s.pushed am w2).setA (zext16 (s.elementAddr am w2))) am w2).setP (s.p + 2) := by
  rw [execSlas, outcome_eq_next_iff, bind_eq_ok_iff]
  simp only [checkSlasMode_eq_ok_iff, stackOperand_bind_eq_ok_iff, advance_bind_eq_ok_iff, pure_eq_ok_iff, restore_access,
    exists_const]
  rfl

/-! ## What an instruction can do to the state -/

/-- What the 15 stack instructions do between the PUSH write-back and the POP write-back (R35 steps 5 and 6): the state `s`
becomes the given one before `popped` and the new P. -/
inductive ElementEffect (s : State) (am : Mode) (w2 : Word) : State → Prop where
  | keep : ElementEffect s am w2 (s.pushed am w2)
  | setA (v : Word) : ElementEffect s am w2 ((s.pushed am w2).setA v)
  | setX (v : Word) : ElementEffect s am w2 ((s.pushed am w2).setX v)
  | store (v : Word) (installed : s.installed (s.elementAddr am w2)) :
      ElementEffect s am w2 ((s.pushed am w2).store (s.elementAddr am w2) v)
  | exchange (v w : Word) (installed : s.installed (s.elementAddr am w2)) :
      ElementEffect s am w2 (((s.pushed am w2).store (s.elementAddr am w2) v).setA w)
  | raiseOv {u : State} (b : Bool) (effect : ElementEffect s am w2 u) : ElementEffect s am w2 (u.raiseOv b)

/-- What an instruction other than EIX does to the state. -/
inductive Effect (s : State) : State → Prop where
  | registerA (v : Word) (q : Addr) : Effect s ((s.setA v).setP q)
  | registerX (v : Word) (q : Addr) : Effect s ((s.setX v).setP q)
  | stack {am : Mode} {w2 : Word} {u : State} (q : Addr) (ready : s.stackReady am w2) (element : ElementEffect s am w2 u) :
      Effect s ((s.popped u am w2).setP q)

theorem effect_of_combineWithA {f : Word → Word → Word} {overflows : Word → Word → Bool} {am : Mode} {w2 : Word}
    {s t : State} (h : outcome (combineWithA f overflows am w2 s) = .next t) : Effect s t := by
  rw [outcome_eq_next_iff, combineWithA_eq_ok_iff] at h
  obtain ⟨hready, -, rfl⟩ := h
  exact .stack _ hready.1 (.raiseOv _ (.setA _))

theorem effect_of_storeElement {v : Word} {am : Mode} {w2 : Word} {s t : State}
    (h : outcome (storeElement v am w2 s) = .next t) : Effect s t := by
  rw [outcome_eq_next_iff, storeElement_eq_ok_iff] at h
  obtain ⟨⟨hready, hsea⟩, -, rfl⟩ := h
  exact .stack _ hready (.store _ hsea)

theorem effect_of_stepOverOneWord_setA {v : Word} {s t : State} (h : stepOverOneWord s (s.setA v) = .next t) :
    Effect s t := by
  obtain ⟨-, rfl⟩ := (stepOverOneWord_eq_next_iff _ _ _).mp h
  exact .registerA _ _

theorem effect_of_stepOverOneWord_setX {v : Word} {s t : State} (h : stepOverOneWord s (s.setX v) = .next t) :
    Effect s t := by
  obtain ⟨-, rfl⟩ := (stepOverOneWord_eq_next_iff _ _ _).mp h
  exact .registerX _ _

/-- An instruction other than EIX that completes has one of these effects. -/
theorem exec_effect {i : Instr} {s t : State} (hi : i ≠ .eix) (h : exec i s = .next t) : Effect s t := by
  cases i with
  | ands am w2 => exact effect_of_combineWithA h
  | adds am w2 => exact effect_of_combineWithA h
  | subs am w2 => exact effect_of_combineWithA h
  | iors am w2 => exact effect_of_combineWithA h
  | xors am w2 => exact effect_of_combineWithA h
  | stas am w2 => exact effect_of_storeElement h
  | stxs am w2 => exact effect_of_storeElement h
  | ldas am w2 =>
    obtain ⟨hready, -, rfl⟩ := (execLdas_eq_next_iff am w2 s t).mp h
    exact .stack _ hready.1 (.setA _)
  | ldxs am w2 =>
    obtain ⟨hready, -, rfl⟩ := (execLdxs_eq_next_iff am w2 s t).mp h
    exact .stack _ hready.1 (.setX _)
  | emas am w2 =>
    obtain ⟨⟨hready, hsea⟩, -, rfl⟩ := (execEmas_eq_next_iff am w2 s t).mp h
    exact .stack _ hready (.exchange _ _ hsea)
  | slas am w2 =>
    obtain ⟨-, hready, -, rfl⟩ := (execSlas_eq_next_iff am w2 s t).mp h
    exact .stack _ hready (.setA _)
  | cmss am w2 =>
    obtain ⟨hready, -, rfl⟩ := (execCmss_eq_next_iff am w2 s t).mp h
    exact .stack _ hready.1 .keep
  | imss am w2 =>
    obtain ⟨⟨hready, hsea⟩, -, rfl⟩ := (execImss_eq_next_iff am w2 s t).mp h
    exact .stack _ hready (.raiseOv _ (.store _ hsea))
  | jmps am w2 =>
    obtain ⟨hready, rfl⟩ := (execJmps_eq_next_iff am w2 s t).mp h
    exact .stack _ hready .keep
  | jsts am w2 =>
    obtain ⟨⟨hready, hsea⟩, -, -, rfl⟩ := (execJsts_eq_next_iff am w2 s t).mp h
    exact .stack _ hready (.store _ hsea)
  | eix => exact absurd rfl hi
  | bca => exact effect_of_stepOverOneWord_setA h
  | bsa => exact effect_of_stepOverOneWord_setA h
  | bcx => exact effect_of_stepOverOneWord_setX h
  | bsx => exact effect_of_stepOverOneWord_setX h

/-- EIX completes as its target does at EIX + 1, and the target is no EIX (R125, R129). -/
theorem execEix_next {s t : State} (h : execEix s = .next t) :
    ∃ i, i ≠ .eix ∧ eixTarget s = .ok (i, s.p + 1) ∧ exec i (s.setP (s.p + 1)) = .next t := by
  obtain ⟨i, loc, htarget, hexec⟩ := (execEix_eq_next_iff s t).mp h
  obtain ⟨-, -, -, rfl, -⟩ := (eixTarget_eq_ok_iff s i loc).mp htarget
  have hi : i ≠ .eix := by
    rintro rfl
    cases hexec
  exact ⟨i, hi, htarget, execTarget_eq_exec i _ hi ▸ hexec⟩

/-- Everything a step can do: the effect of one instruction, after P has moved on if an EIX executed it. -/
theorem step_effect {s t : State} (h : step s = .next t) : ∃ q, Effect (s.setP q) t := by
  obtain ⟨-, i, -, hexec⟩ := (step_eq_next_iff s t).mp h
  by_cases hi : i = .eix
  · subst hi
    obtain ⟨j, hj, -, htarget⟩ := execEix_next hexec
    exact ⟨s.p + 1, exec_effect hj htarget⟩
  · exact ⟨s.p, exec_effect hi hexec⟩

end Sys2Proof.Machine
end

/-! ## What every step keeps -/

section
namespace Sys2Proof.Machine

theorem ElementEffect.cfg_eq {s u : State} {am : Mode} {w2 : Word} (h : ElementEffect s am w2 u) : u.cfg = s.cfg := by
  induction h with
  | raiseOv b effect ih => exact ih
  | _ => simp

theorem ElementEffect.a_eq_or_x_eq {s u : State} {am : Mode} {w2 : Word} (h : ElementEffect s am w2 u) :
    u.a = s.a ∨ u.x = s.x := by
  induction h with
  | setX v => exact .inl (by simp)
  | raiseOv b effect ih => exact ih
  | _ => exact .inr (by simp)

theorem Effect.cfg_eq {s t : State} (h : Effect s t) : t.cfg = s.cfg := by
  cases h with
  | registerA v q => rfl
  | registerX v q => rfl
  | stack q ready element => simpa using element.cfg_eq

theorem Effect.a_eq_or_x_eq {s t : State} (h : Effect s t) : t.a = s.a ∨ t.x = s.x := by
  cases h with
  | registerA v q => exact .inr rfl
  | registerX v q => exact .inl rfl
  | stack q ready element => simpa using element.a_eq_or_x_eq

/-- A store to an installed word keeps the invariant. -/
theorem State.inv_store {s : State} {k : Addr} (v : Word) (hk : s.installed k) (hs : s.Inv) : (s.store k v).Inv := by
  obtain ⟨hcfg, hmem, hlisted⟩ := hs
  refine ⟨hcfg, Memory.write_wf _ _ _ hmem, fun c hc => ?_⟩
  rcases Memory.mem_write _ _ _ c hc with hc | rfl
  · exact hlisted c hc
  · exact hk

/-- The PUSH write-back is to SPA, which is installed. -/
theorem State.inv_pushed {s : State} {am : Mode} {w2 : Word} (hready : s.stackReady am w2) (hs : s.Inv) :
    (s.pushed am w2).Inv := by
  obtain ⟨-, -, hspa, -, -⟩ := hready
  cases am with
  | push => exact State.inv_store _ hspa hs
  | _ => exact hs

/-- So is the POP write-back. -/
theorem State.inv_popped {s u : State} {am : Mode} {w2 : Word} (hready : s.stackReady am w2) (hcfg : u.cfg = s.cfg)
    (hu : u.Inv) : (s.popped u am w2).Inv := by
  obtain ⟨-, -, hspa, -, -⟩ := hready
  cases am with
  | pop => exact State.inv_store _ (by rwa [State.installed, hcfg]) hu
  | _ => exact hu

theorem ElementEffect.inv {s u : State} {am : Mode} {w2 : Word} (hready : s.stackReady am w2) (hs : s.Inv)
    (h : ElementEffect s am w2 u) : u.Inv := by
  have hpushed : (s.pushed am w2).Inv := State.inv_pushed hready hs
  induction h with
  | keep => exact hpushed
  | setA v => exact hpushed
  | setX v => exact hpushed
  | store v installed => exact State.inv_store v ((s.pushed_installed am w2 _).mpr installed) hpushed
  | exchange v w installed => exact State.inv_store v ((s.pushed_installed am w2 _).mpr installed) hpushed
  | raiseOv b effect ih => exact ih

theorem Effect.inv {s t : State} (h : Effect s t) (hs : s.Inv) : t.Inv := by
  cases h with
  | registerA v q => exact hs
  | registerX v q => exact hs
  | stack q ready element => exact State.inv_popped ready element.cfg_eq (element.inv ready hs)

/-- Settles O48: a step's writes are all to installed words, and each keeps the canonical form. -/
theorem stepKeepsTheInvariant : Obligations.StepKeepsTheInvariant := by
  intro s t hs h
  obtain ⟨q, heffect⟩ := step_effect h
  exact heffect.inv hs

/-- Settles O53: no effect of an instruction sets both A and X. -/
theorem stepWritesAtMostOneRegister : Obligations.StepWritesAtMostOneRegister := by
  intro s t h
  obtain ⟨q, heffect⟩ := step_effect h
  exact ⟨heffect.a_eq_or_x_eq, heffect.cfg_eq⟩

end Sys2Proof.Machine
end

/-! ## The machine whose BaseStep is undefined -/

section
namespace Sys2Proof.Machine

/-- A base-machine word has no second word: it has not the stack format (R59). -/
theorem hasSecondWord_of_isBaseWord {w : Word} (h : isBaseWord w = true) : hasSecondWord w = false := by
  have hdecode : decode w 0 = .error .notExtendedInstruction := of_decide_eq_true h
  have hformat : isStackFormat w = false := by
    unfold decode at hdecode
    split_ifs at hdecode with _ _ _ _ _ hformat
    · split at hdecode <;> cases hdecode
    · exact Bool.eq_false_iff.mpr hformat
  rw [hasSecondWord, hformat, Bool.false_and]

/-- The fetch, in line and through EIX, refuses a base-machine word by its own name (R131). -/
theorem instrAt_of_isBaseWord {w : Word} (h : isBaseWord w = true) (loc : Addr) (s : State) :
    instrAt w loc s = .error .notExtendedInstruction := by
  have hdecode : decode w 0 = .error .notExtendedInstruction := of_decide_eq_true h
  simp only [instrAt, hasSecondWord_of_isBaseWord h, decodeFetched, hdecode, refusalOfDecode, Bool.false_eq_true, if_false]

theorem execBase_undefined (s : State) (w : Word) (loc : Addr) :
    execBase BaseStep.undefined s w loc = .refused .notExtendedInstruction := rfl

theorem fetch_of_readWord_error {s : State} {r : Refusal} (h : readWord s s.p = .error r) : fetch s = .error r := by
  rw [fetch, h]
  rfl

theorem fetch_of_readWord_ok {s : State} {w : Word} (h : readWord s s.p = .ok w) : fetch s = instrAt w s.p s := by
  rw [fetch, h]
  rfl

theorem eixTarget_of_eixWord_error {s : State} {r : Refusal} (h : eixWord s = .error r) : eixTarget s = .error r := by
  rw [eixTarget, h]
  rfl

theorem eixTarget_of_eixWord_isBaseWord {s : State} {w : Word} {loc : Addr} (h : eixWord s = .ok (w, loc))
    (hbase : isBaseWord w = true) : eixTarget s = .error .notExtendedInstruction := by
  rw [eixTarget, h]
  simp only [bind, Except.bind, instrAt_of_isBaseWord hbase]

/-- With BaseStep undefined, EIX answers on each of its words what `execEix` answers. -/
theorem eixWith_undefined (s : State) : eixWith BaseStep.undefined s = execEix s := by
  unfold eixWith
  split
  next r hword => rw [execEix, eixTarget_of_eixWord_error hword]
  next w loc hword =>
    split
    next hbase => rw [execBase_undefined, execEix, eixTarget_of_eixWord_isBaseWord hword hbase]
    next => rfl

/-- Settles O54: on each branch of `stepWith`, the fetch of `step` leads to the same answer. -/
theorem undefinedBaseStepIsStep : Obligations.UndefinedBaseStepIsStep := by
  intro s
  unfold stepWith
  split
  next hhalt => rw [step, if_pos hhalt]
  next hhalt =>
    split
    next r hread => rw [step, if_neg hhalt, fetch_of_readWord_error hread]
    next w hread =>
      split
      next hbase =>
        rw [step, if_neg hhalt, fetch_of_readWord_ok hread, instrAt_of_isBaseWord hbase, execBase_undefined]
      next =>
        split
        next heix =>
          subst heix
          rw [eixWith_undefined, step, if_neg hhalt, fetch_of_readWord_ok hread]
          rfl
        next => rfl

end Sys2Proof.Machine
end

/-! ## When a computation is refused, and by which name -/

section
namespace Sys2Proof.Machine

/-! A computation is refused at the first of its parts that is refused, when the parts before it have answered. -/

theorem bind_eq_error_of_ok {α β : Type} {c : Except Refusal α} {f : α → Except Refusal β} {a : α} {r : Refusal}
    (hc : c = .ok a) (hf : f a = .error r) : (c >>= f) = .error r := by
  rw [hc]
  exact hf

theorem bind_eq_error_of_error {α β : Type} {c : Except Refusal α} {f : α → Except Refusal β} {r : Refusal}
    (hc : c = .error r) : (c >>= f) = .error r := by
  rw [hc]
  rfl

theorem outcome_eq_refused_iff (c : Except Refusal State) (r : Refusal) : outcome c = .refused r ↔ c = .error r := by
  cases c <;> simp [outcome]

theorem advance_eq_ok {k : Addr} {n : Nat} (h : k.toNat + n ≤ 32767) : advance k n = .ok (k + BitVec.ofNat 15 n) :=
  (advance_eq_ok_iff _ _ _).mpr ⟨h, rfl⟩

theorem advance_eq_error {k : Addr} {n : Nat} (h : 32767 < k.toNat + n) : advance k n = .error .pOutOfRange :=
  if_neg (Nat.not_le.mpr h)

theorem addr15_eq_ok {s : State} {v : Word} (h : s.admits v) : addr15 s.cfg v = .ok (low15 v) :=
  (addr15_eq_ok_iff _ _ _).mpr ⟨h, rfl⟩

theorem addr15_eq_error {s : State} {v : Word} (h : ¬ s.admits v) : addr15 s.cfg v = .error .addressBit15Set := by
  obtain ⟨hpolicy, hmsb⟩ := not_or.mp h
  unfold addr15
  cases hbit : s.cfg.bit15 with
  | mask => exact absurd hbit hpolicy
  | refuse => exact if_pos (Bool.not_eq_false _ ▸ hmsb)

theorem readWord_eq_ok {s : State} {k : Addr} (h : s.installed k) : readWord s k = .ok (s.load k) :=
  (readWord_eq_ok_iff _ _ _).mpr ⟨h, rfl⟩

theorem readWord_eq_error {s : State} {k : Addr} (h : ¬ s.installed k) : readWord s k = .error .nonexistentMemory :=
  bind_eq_error_of_error (if_neg h)

theorem stackOperand_eq_ok {s : State} {am : Mode} {w2 : Word} (h : s.stackReady am w2) :
    stackOperand am w2 s = .ok (s.access am w2) :=
  (stackOperand_eq_ok_iff _ _ _ _).mpr ⟨h, rfl⟩

theorem readElement_eq_ok {s : State} {am : Mode} {w2 : Word} (h : s.elementReady am w2) :
    readElement am w2 s = .ok (s.access am w2, s.element am w2) :=
  (readElement_eq_ok_iff _ _ _ _).mpr ⟨h, rfl⟩

/-- A store to the element, after the PUSH write-back. -/
theorem writeElement_eq_ok {s : State} {am : Mode} {w2 : Word} (h : s.installed (s.elementAddr am w2)) (v : Word) :
    writeWord (s.access am w2).st (s.access am w2).sea v = .ok ((s.pushed am w2).store (s.elementAddr am w2) v) :=
  (writeWord_eq_ok_iff _ _ _ _).mpr ⟨(s.pushed_installed am w2 _).mpr h, rfl⟩

end Sys2Proof.Machine
end

/-! ## A new P beyond 32767 is refused (R15) -/

section
namespace Sys2Proof.Machine

theorem combineWithA_beyondTop {f : Word → Word → Word} {overflows : Word → Word → Bool} {am : Mode} {w2 : Word}
    {s : State} (hready : s.elementReady am w2) (hp : 32767 < s.p.toNat + 2) :
    outcome (combineWithA f overflows am w2 s) = .refused .pOutOfRange :=
  (outcome_eq_refused_iff _ _).mpr <|
    bind_eq_error_of_ok (readElement_eq_ok hready) (bind_eq_error_of_error (advance_eq_error hp))

theorem storeElement_beyondTop {v : Word} {am : Mode} {w2 : Word} {s : State} (hready : s.elementReady am w2)
    (hp : 32767 < s.p.toNat + 2) : outcome (storeElement v am w2 s) = .refused .pOutOfRange :=
  (outcome_eq_refused_iff _ _).mpr <|
    bind_eq_error_of_ok (stackOperand_eq_ok hready.1) <|
      bind_eq_error_of_ok (writeElement_eq_ok hready.2 v) (bind_eq_error_of_error (advance_eq_error hp))

theorem execLdas_beyondTop {am : Mode} {w2 : Word} {s : State} (hready : s.elementReady am w2)
    (hp : 32767 < s.p.toNat + 2) : execLdas am w2 s = .refused .pOutOfRange :=
  (outcome_eq_refused_iff _ _).mpr <|
    bind_eq_error_of_ok (readElement_eq_ok hready) (bind_eq_error_of_error (advance_eq_error hp))

theorem execLdxs_beyondTop {am : Mode} {w2 : Word} {s : State} (hready : s.elementReady am w2)
    (hp : 32767 < s.p.toNat + 2) : execLdxs am w2 s = .refused .pOutOfRange :=
  (outcome_eq_refused_iff _ _).mpr <|
    bind_eq_error_of_ok (readElement_eq_ok hready) (bind_eq_error_of_error (advance_eq_error hp))

theorem execEmas_beyondTop {am : Mode} {w2 : Word} {s : State} (hready : s.elementReady am w2)
    (hp : 32767 < s.p.toNat + 2) : execEmas am w2 s = .refused .pOutOfRange :=
  (outcome_eq_refused_iff _ _).mpr <|
    bind_eq_error_of_ok (readElement_eq_ok hready) <|
      bind_eq_error_of_ok (writeElement_eq_ok hready.2 _) (bind_eq_error_of_error (advance_eq_error hp))

theorem execCmss_beyondTop {am : Mode} {w2 : Word} {s : State} (hready : s.elementReady am w2)
    (hp : 32767 < s.p.toNat + compareAdvance s.cfg s.a (s.element am w2)) :
    execCmss am w2 s = .refused .pOutOfRange :=
  (outcome_eq_refused_iff _ _).mpr <|
    bind_eq_error_of_ok (readElement_eq_ok hready) (bind_eq_error_of_error (advance_eq_error hp))

theorem execImss_beyondTop {am : Mode} {w2 : Word} {s : State} (hready : s.elementReady am w2)
    (hp : 32767 < s.p.toNat + incrementAdvance (s.element am w2 + 1)) : execImss am w2 s = .refused .pOutOfRange :=
  (outcome_eq_refused_iff _ _).mpr <|
    bind_eq_error_of_ok (readElement_eq_ok hready) <|
      bind_eq_error_of_ok (writeElement_eq_ok hready.2 _) (bind_eq_error_of_error (advance_eq_error hp))

/-- JSTS forms both its return address and its new P before the store (R103). -/
theorem execJsts_beyondTop {am : Mode} {w2 : Word} {s : State} (hready : s.stackReady am w2)
    (hp : 32767 < s.p.toNat + 2 ∨ 32767 < (s.elementAddr am w2).toNat + 1) :
    execJsts am w2 s = .refused .pOutOfRange := by
  refine (outcome_eq_refused_iff _ _).mpr (bind_eq_error_of_ok (stackOperand_eq_ok hready) ?_)
  by_cases hback : s.p.toNat + 2 ≤ 32767
  · exact bind_eq_error_of_ok (advance_eq_ok hback)
      (bind_eq_error_of_error (advance_eq_error (hp.resolve_left (Nat.not_lt.mpr hback))))
  · exact bind_eq_error_of_error (advance_eq_error (Nat.not_le.mp hback))

theorem execSlas_beyondTop {am : Mode} {w2 : Word} {s : State} (hready : s.stackReady am w2)
    (hmode : am = .direct ∨ s.cfg.slasNondirect = .sea) (hp : 32767 < s.p.toNat + 2) :
    execSlas am w2 s = .refused .pOutOfRange :=
  (outcome_eq_refused_iff _ _).mpr <|
    bind_eq_error_of_ok ((checkSlasMode_eq_ok_iff _ _ ()).mpr hmode) <|
      bind_eq_error_of_ok (stackOperand_eq_ok hready) (bind_eq_error_of_error (advance_eq_error hp))

theorem stepOverOneWord_beyondTop {s u : State} (hp : 32767 < s.p.toNat + 1) :
    stepOverOneWord s u = .refused .pOutOfRange :=
  (outcome_eq_refused_iff _ _).mpr (bind_eq_error_of_error (advance_eq_error hp))

theorem two_le_compareAdvance (c : Config) (a m : Word) : 2 ≤ compareAdvance c a m := by
  unfold compareAdvance
  split_ifs <;> omega

theorem compareAdvance_of_eq {c : Config} {a m : Word} (h : a = m) : compareAdvance c a m = 4 := if_pos h

theorem compareAdvance_of_greater {c : Config} {a m : Word}
    (h : if c.cmssSigned then m.toInt < a.toInt else m.toNat < a.toNat) : compareAdvance c a m = 3 := by
  have hne : a ≠ m := by
    rintro rfl
    split at h <;> exact lt_irrefl _ h
  have hnotLess : lessThan c a m = false := by
    unfold lessThan signed
    split at h
    next hsigned => rw [if_pos hsigned, decide_eq_false h.le.not_gt]
    next hunsigned => rw [if_neg hunsigned, decide_eq_false h.le.not_gt]
  rw [compareAdvance, if_neg hne, hnotLess, if_neg Bool.false_ne_true]

theorem two_le_incrementAdvance (r : Word) : 2 ≤ incrementAdvance r := by
  unfold incrementAdvance
  split_ifs <;> omega

/-- Each of the 13 stack instructions that access an element forms `loc + 2` or a later address: JSTS as the address it
stores, the others as the new P. -/
theorem exec_elementAccess_beyondTop {am : Mode} {w2 : Word} {s : State} (hready : s.elementReady am w2)
    (hp : 32767 < s.p.toNat + 2) :
    ∀ i ∈ [Instr.ands am w2, .adds am w2, .subs am w2, .stas am w2, .iors am w2, .xors am w2, .ldas am w2, .emas am w2,
      .cmss am w2, .imss am w2, .ldxs am w2, .stxs am w2, .jsts am w2], exec i s = .refused .pOutOfRange := by
  simp only [List.forall_mem_cons, List.not_mem_nil, false_implies, implies_true, and_true]
  refine ⟨?ands, ?adds, ?subs, ?stas, ?iors, ?xors, ?ldas, ?emas, ?cmss, ?imss, ?ldxs, ?stxs, ?jsts⟩
  case ands => exact combineWithA_beyondTop hready hp
  case adds => exact combineWithA_beyondTop hready hp
  case subs => exact combineWithA_beyondTop hready hp
  case iors => exact combineWithA_beyondTop hready hp
  case xors => exact combineWithA_beyondTop hready hp
  case stas => exact storeElement_beyondTop hready hp
  case stxs => exact storeElement_beyondTop hready hp
  case ldas => exact execLdas_beyondTop hready hp
  case ldxs => exact execLdxs_beyondTop hready hp
  case emas => exact execEmas_beyondTop hready hp
  case cmss => exact execCmss_beyondTop hready (hp.trans_le (Nat.add_le_add_left (two_le_compareAdvance _ _ _) _))
  case imss => exact execImss_beyondTop hready (hp.trans_le (Nat.add_le_add_left (two_le_incrementAdvance _) _))
  case jsts => exact execJsts_beyondTop hready.1 (.inl hp)

theorem exec_registerChange_beyondTop {s : State} (hp : 32767 < s.p.toNat + 1) :
    ∀ i ∈ [Instr.bca, .bcx, .bsa, .bsx], exec i s = .refused .pOutOfRange := by
  simp only [List.forall_mem_cons, List.not_mem_nil, false_implies, implies_true, and_true]
  exact ⟨stepOverOneWord_beyondTop hp, stepOverOneWord_beyondTop hp, stepOverOneWord_beyondTop hp,
    stepOverOneWord_beyondTop hp⟩

theorem instrAt_beyondTop {w1 : Word} {loc : Addr} {s : State} (hsecond : hasSecondWord w1 = true)
    (hloc : 32767 < loc.toNat + 1) : instrAt w1 loc s = .error .pOutOfRange := by
  rw [instrAt, if_pos hsecond]
  exact bind_eq_error_of_error (advance_eq_error hloc)

theorem step_of_fetch_error {s : State} {r : Refusal} (hhalt : s.cfg.haltAddr ≠ some s.p) (h : fetch s = .error r) :
    step s = .refused r := by
  rw [step, if_neg hhalt, h]

end Sys2Proof.Machine
end

/-! ## What EIX itself is refused for -/

section
namespace Sys2Proof.Machine

theorem execEix_of_eixTarget_error {s : State} {r : Refusal} (h : eixTarget s = .error r) : execEix s = .refused r := by
  rw [execEix, h]

theorem execEix_of_eixTarget_ok {s : State} {i : Instr} {loc : Addr} (h : eixTarget s = .ok (i, loc)) :
    execEix s = execTarget i (s.setP loc) := by
  rw [execEix, h]

theorem execEix_of_eixWord_error {s : State} {r : Refusal} (h : eixWord s = .error r) : execEix s = .refused r :=
  execEix_of_eixTarget_error (eixTarget_of_eixWord_error h)

theorem eixWord_eq_ok {s : State} (hp : s.p.toNat + 1 ≤ 32767) (hx : s.admits s.x) (hin : s.installed (low15 s.x)) :
    eixWord s = .ok (s.load (low15 s.x), s.p + 1) := by
  refine (bind_eq_ok_iff _ _ _).mpr ⟨_, advance_eq_ok hp, (bind_eq_ok_iff _ _ _).mpr ⟨_, addr15_eq_ok hx, ?_⟩⟩
  rw [readWord_eq_ok hin]
  rfl

/-- EIX is refused where the word it executes gives no instruction at EIX + 1, by the fetch's own name (R126, R131). -/
theorem execEix_of_instrAt_error {s : State} {r : Refusal} (hp : s.p.toNat + 1 ≤ 32767) (hx : s.admits s.x)
    (hin : s.installed (low15 s.x)) (h : instrAt (s.load (low15 s.x)) (s.p + 1) s = .error r) :
    execEix s = .refused r :=
  execEix_of_eixTarget_error (bind_eq_error_of_ok (eixWord_eq_ok hp hx hin) (bind_eq_error_of_error h))

/-- EIX runs the one-word instruction that the word at X decodes to. -/
theorem execEix_of_oneWord {s : State} {i : Instr} (hp : s.p.toNat + 1 ≤ 32767) (hx : s.admits s.x)
    (hin : s.installed (low15 s.x)) (hsecond : hasSecondWord (s.load (low15 s.x)) = false)
    (hdecode : decode (s.load (low15 s.x)) 0 = .ok i) : execEix s = execTarget i (s.setP (s.p + 1)) := by
  have hinstr : instrAt (s.load (low15 s.x)) (s.p + 1) s = .ok i := by
    rwa [instrAt_eq_ok_iff, if_neg (Bool.eq_false_iff.mp hsecond)]
  exact execEix_of_eixTarget_ok ((eixTarget_eq_ok_iff _ _ _).mpr ⟨hp, hx, hin, rfl, hinstr⟩)

/-- Settles O32: EIX makes its checks in the order of `eixWord`, and then its target is run. -/
theorem eixRefusals : Obligations.EixRefusals := by
  intro s
  refine ⟨fun hp => ?beyondTop, fun hp hx => ?bit15, fun hp hx hin => ?uninstalled, fun hp hx hin hword => ?nested⟩
  case beyondTop => exact execEix_of_eixWord_error (bind_eq_error_of_error (advance_eq_error hp))
  case bit15 =>
    exact execEix_of_eixWord_error
      (bind_eq_error_of_ok (advance_eq_ok hp) (bind_eq_error_of_error (addr15_eq_error hx)))
  case uninstalled =>
    exact execEix_of_eixWord_error
      (bind_eq_error_of_ok (advance_eq_ok hp) (bind_eq_error_of_ok (addr15_eq_ok hx)
        (bind_eq_error_of_error (readWord_eq_error hin))))
  case nested =>
    have hsecond : hasSecondWord (s.load (low15 s.x)) = false := by
      rw [hword]
      decide
    have hdecode : decode (s.load (low15 s.x)) 0 = .ok .eix := by
      rw [hword]
      rfl
    exact execEix_of_oneWord hp hx hin hsecond hdecode

theorem oneWord_of_registerChangeWord :
    ∀ w ∈ [(0x06CA : Word), 0x06C8, 0x068A, 0x0688],
      hasSecondWord w = false ∧ ∃ i ∈ [Instr.bca, .bcx, .bsa, .bsx], decode w 0 = .ok i := by
  simp only [List.forall_mem_cons, List.not_mem_nil, false_implies, implies_true, and_true]
  exact ⟨⟨by decide, .bca, by simp, rfl⟩, ⟨by decide, .bcx, by simp, rfl⟩, ⟨by decide, .bsa, by simp, rfl⟩,
    ⟨by decide, .bsx, by simp, rfl⟩⟩

/-- EIX + 2 is either where the target's second word stands or the P that a one-word target leaves. -/
theorem execEix_beyondTop {s : State} (hx : s.admits s.x) (hin : s.installed (low15 s.x))
    (hp : 32767 < s.p.toNat + 2)
    (hword : hasSecondWord (s.load (low15 s.x)) = true ∨
      s.load (low15 s.x) ∈ [(0x06CA : Word), 0x06C8, 0x068A, 0x0688]) :
    execEix s = .refused .pOutOfRange := by
  by_cases hloc : s.p.toNat + 1 ≤ 32767
  case neg => exact execEix_of_eixWord_error (bind_eq_error_of_error (advance_eq_error (Nat.not_le.mp hloc)))
  case pos =>
    have hnext : 32767 < (s.p + 1).toNat + 1 := by
      have hexact : (s.p + 1).toNat = s.p.toNat + 1 := advance_toNat (advance_eq_ok hloc)
      omega
    rcases hword with hsecond | hword
    · exact execEix_of_instrAt_error hloc hx hin (instrAt_beyondTop hsecond hnext)
    · obtain ⟨hsecond, i, hi, hdecode⟩ := oneWord_of_registerChangeWord _ hword
      have hne : i ≠ .eix := by
        rintro rfl
        simp at hi
      rw [execEix_of_oneWord hloc hx hin hsecond hdecode, execTarget_eq_exec i _ hne]
      exact exec_registerChange_beyondTop hnext i hi

/-- Settles O35: each clause meets an `advance` beyond 32767 after parts that all answer. -/
theorem pBeyondTopIsRefused : Obligations.PBeyondTopIsRefused := by
  intro am w2 s
  refine ⟨exec_elementAccess_beyondTop, fun hready hsea => ?jsts, fun hready hm hp => ?imss,
    fun hready heq hp => ?cmssEqual, fun hready hgreater hp => ?cmssGreater, execSlas_beyondTop,
    exec_registerChange_beyondTop, fun hhalt hin hsecond hp => ?fetch, execEix_beyondTop⟩
  case jsts => exact execJsts_beyondTop hready.1 (.inr (by rw [hsea]; decide))
  case imss =>
    have hzero : incrementAdvance (s.element am w2 + 1) = 3 := by
      rw [hm]
      decide
    exact execImss_beyondTop hready (by rwa [hzero])
  case cmssEqual => exact execCmss_beyondTop hready (by rwa [compareAdvance_of_eq heq])
  case cmssGreater => exact execCmss_beyondTop hready (by rwa [compareAdvance_of_greater hgreater])
  case fetch =>
    exact step_of_fetch_error hhalt
      (bind_eq_error_of_ok (readWord_eq_ok hin) (instrAt_beyondTop hsecond hp))

end Sys2Proof.Machine
end

/-! ## OV -/

section
namespace Sys2Proof.Machine

theorem ElementEffect.ov_of_ov {s u : State} {am : Mode} {w2 : Word} (h : ElementEffect s am w2 u) (hov : s.ov = true) :
    u.ov = true := by
  induction h with
  | raiseOv b effect ih => rw [State.raiseOv_ov, ih, Bool.true_or]
  | _ => simpa using hov

theorem Effect.ov_of_ov {s t : State} (h : Effect s t) (hov : s.ov = true) : t.ov = true := by
  cases h with
  | registerA v q => exact hov
  | registerX v q => exact hov
  | stack q ready element => simpa using element.ov_of_ov hov

/-- Settles O51: of the effects an instruction can have, only `raiseOv` is on OV, and it never clears it. -/
theorem noStepClearsOv : Obligations.NoStepClearsOv := by
  intro s t h hov
  obtain ⟨q, heffect⟩ := step_effect h
  exact heffect.ov_of_ov hov

theorem ov_eq_of_combineWithA {f : Word → Word → Word} {am : Mode} {w2 : Word} {s t : State}
    (h : outcome (combineWithA f neverOverflows am w2 s) = .next t) : t.ov = s.ov := by
  obtain ⟨-, -, rfl⟩ := (combineWithA_eq_ok_iff _ _ _ _ _ _).mp ((outcome_eq_next_iff _ _).mp h)
  simp [neverOverflows]

theorem ov_eq_of_storeElement {v : Word} {am : Mode} {w2 : Word} {s t : State}
    (h : outcome (storeElement v am w2 s) = .next t) : t.ov = s.ov := by
  obtain ⟨-, -, rfl⟩ := (storeElement_eq_ok_iff _ _ _ _ _).mp ((outcome_eq_next_iff _ _).mp h)
  simp

theorem ov_eq_of_stepOverOneWord {s u t : State} (h : stepOverOneWord s u = .next t) : t.ov = u.ov := by
  obtain ⟨-, rfl⟩ := (stepOverOneWord_eq_next_iff _ _ _).mp h
  rfl

/-- Of the instructions other than EIX, only ADDS, SUBS and IMSS can complete with another OV (R16). -/
theorem exec_ov_ne {i : Instr} {s t : State} (hi : i ≠ .eix) (h : exec i s = .next t) (hov : t.ov ≠ s.ov) :
    ∃ am w2, i ∈ [Instr.adds am w2, .subs am w2, .imss am w2] := by
  cases i with
  | adds am w2 => exact ⟨am, w2, by simp⟩
  | subs am w2 => exact ⟨am, w2, by simp⟩
  | imss am w2 => exact ⟨am, w2, by simp⟩
  | eix => exact absurd rfl hi
  | ands am w2 => exact absurd (ov_eq_of_combineWithA h) hov
  | iors am w2 => exact absurd (ov_eq_of_combineWithA h) hov
  | xors am w2 => exact absurd (ov_eq_of_combineWithA h) hov
  | stas am w2 => exact absurd (ov_eq_of_storeElement h) hov
  | stxs am w2 => exact absurd (ov_eq_of_storeElement h) hov
  | bca => exact absurd (ov_eq_of_stepOverOneWord h) hov
  | bcx => exact absurd (ov_eq_of_stepOverOneWord h) hov
  | bsa => exact absurd (ov_eq_of_stepOverOneWord h) hov
  | bsx => exact absurd (ov_eq_of_stepOverOneWord h) hov
  | ldas am w2 =>
    obtain ⟨-, -, rfl⟩ := (execLdas_eq_next_iff am w2 s t).mp h
    simp at hov
  | ldxs am w2 =>
    obtain ⟨-, -, rfl⟩ := (execLdxs_eq_next_iff am w2 s t).mp h
    simp at hov
  | emas am w2 =>
    obtain ⟨-, -, rfl⟩ := (execEmas_eq_next_iff am w2 s t).mp h
    simp at hov
  | slas am w2 =>
    obtain ⟨-, -, -, rfl⟩ := (execSlas_eq_next_iff am w2 s t).mp h
    simp at hov
  | cmss am w2 =>
    obtain ⟨-, -, rfl⟩ := (execCmss_eq_next_iff am w2 s t).mp h
    simp at hov
  | jmps am w2 =>
    obtain ⟨-, rfl⟩ := (execJmps_eq_next_iff am w2 s t).mp h
    simp at hov
  | jsts am w2 =>
    obtain ⟨-, -, -, rfl⟩ := (execJsts_eq_next_iff am w2 s t).mp h
    simp at hov

/-- Settles O52: EIX leaves the OV that its target leaves, and its target is no EIX. -/
theorem onlyAddsSubsImssTouchOv : Obligations.OnlyAddsSubsImssTouchOv := by
  intro i s t h hov
  by_cases hi : i = .eix
  · subst hi
    obtain ⟨j, hj, htarget, hexec⟩ := execEix_next h
    obtain ⟨am, w2, hmem⟩ := exec_ov_ne hj hexec hov
    exact .inr ⟨rfl, s.p + 1, am, w2, j, hmem, htarget⟩
  · exact .inl (exec_ov_ne hi h hov)

end Sys2Proof.Machine
end

/-! ## The state after reset -/

section
namespace Sys2Proof.Machine

theorem Config.default_wf : Config.default.wf := by decide

theorem Memory.nil_wf : Memory.wf [] := ⟨List.Pairwise.nil, List.forall_mem_nil _⟩

/-- Settles O49: the parameters are R6's defaults and no word is listed. -/
theorem resetMeetsTheInvariant : Obligations.ResetMeetsTheInvariant :=
  ⟨Config.default_wf, Memory.nil_wf, List.forall_mem_nil _⟩

/-- No word is listed after reset, so each reads as the unlisted value. -/
theorem State.load_reset (k : Addr) : State.reset.load k = 0 := rfl

/-- Settles O50: the fields as `State.reset` and `Config.default` give them. -/
theorem resetLeavesTheChosenValues : Obligations.ResetLeavesTheChosenValues :=
  ⟨rfl, rfl, rfl, rfl, State.load_reset, rfl, rfl, rfl, rfl, rfl⟩

end Sys2Proof.Machine
end

/-! ## Accesses to an element that is not installed (R31, R34) -/

section
namespace Sys2Proof.Machine

theorem writeWord_eq_error {s : State} {k : Addr} (h : ¬ s.installed k) (v : Word) :
    writeWord s k v = .error .nonexistentMemory :=
  bind_eq_error_of_error (if_neg h)

theorem readElement_eq_error {s : State} {am : Mode} {w2 : Word} (hready : s.stackReady am w2)
    (hsea : ¬ s.installed (s.elementAddr am w2)) : readElement am w2 s = .error .nonexistentMemory :=
  bind_eq_error_of_ok (stackOperand_eq_ok hready) <|
    bind_eq_error_of_error (readWord_eq_error (mt (s.pushed_installed am w2 _).mp hsea))

/-- So is a store to the element: the PUSH write-back before it installs nothing. -/
theorem writeElement_eq_error {s : State} {am : Mode} {w2 : Word} (hsea : ¬ s.installed (s.elementAddr am w2))
    (v : Word) : writeWord (s.access am w2).st (s.access am w2).sea v = .error .nonexistentMemory :=
  writeWord_eq_error (mt (s.pushed_installed am w2 _).mp hsea) v

/-- What begins with reading the element is refused there, whatever it does next. -/
theorem outcome_readElement_uninstalled {s : State} {am : Mode} {w2 : Word} (hready : s.stackReady am w2)
    (hsea : ¬ s.installed (s.elementAddr am w2)) (f : StackAccess × Word → Except Refusal State) :
    outcome (readElement am w2 s >>= f) = .refused .nonexistentMemory :=
  (outcome_eq_refused_iff _ _).mpr (bind_eq_error_of_error (readElement_eq_error hready hsea))

theorem storeElement_uninstalled {v : Word} {s : State} {am : Mode} {w2 : Word} (hready : s.stackReady am w2)
    (hsea : ¬ s.installed (s.elementAddr am w2)) :
    outcome (storeElement v am w2 s) = .refused .nonexistentMemory :=
  (outcome_eq_refused_iff _ _).mpr <|
    bind_eq_error_of_ok (stackOperand_eq_ok hready) (bind_eq_error_of_error (writeElement_eq_error hsea v))

/-- JSTS stores after it has formed its return address and its new P (R103). -/
theorem execJsts_uninstalled {s : State} {am : Mode} {w2 : Word} (hready : s.stackReady am w2)
    (hsea : ¬ s.installed (s.elementAddr am w2)) (hp : s.p.toNat + 2 ≤ 32767)
    (hentry : (s.elementAddr am w2).toNat + 1 ≤ 32767) : execJsts am w2 s = .refused .nonexistentMemory :=
  (outcome_eq_refused_iff _ _).mpr <|
    bind_eq_error_of_ok (stackOperand_eq_ok hready) <|
      bind_eq_error_of_ok (advance_eq_ok hp) <|
        bind_eq_error_of_ok (advance_eq_ok hentry) (bind_eq_error_of_error (writeElement_eq_error hsea _))

/-- The POP write-back and a new P can be made in either order. -/
theorem State.popped_setP (s t : State) (am : Mode) (w2 : Word) (q : Addr) :
    (s.popped t am w2).setP q = s.popped (t.setP q) am w2 := by
  cases am <;> rfl

/-- Settles O34: ten of the twelve begin by reading the element and two store to it, as does JSTS; JMPS does neither. -/
theorem uninstalledElementIsRefused : Obligations.UninstalledElementIsRefused := by
  intro am w2 s hready hsea hp
  refine ⟨?elementInstructions, execJsts_uninstalled hready hsea hp, ?jmps⟩
  case elementInstructions =>
    have hread := outcome_readElement_uninstalled hready hsea
    simp only [List.forall_mem_cons, List.not_mem_nil, false_implies, implies_true, and_true]
    refine ⟨hread _, hread _, hread _, ?stas, hread _, hread _, hread _, hread _, hread _, hread _, hread _, ?stxs⟩
    case stas => exact storeElement_uninstalled hready hsea
    case stxs => exact storeElement_uninstalled hready hsea
  case jmps => exact (execJmps_eq_next_iff _ _ _ _).mpr ⟨hready, (State.popped_setP _ _ _ _ _).symm⟩

end Sys2Proof.Machine
end

/-! ## What an instruction can do to memory (R34, R35) -/

section
namespace Sys2Proof.Machine

theorem State.read_pushed_other {s : State} {am : Mode} {w2 : Word} {n : Nat}
    (h : am = .push → n ≠ (low15 w2).toNat) : (s.pushed am w2).mem.read n = s.mem.read n := by
  cases am with
  | push => exact Memory.read_write_other _ _ _ _ (h rfl)
  | _ => rfl

theorem State.read_popped_other {s t : State} {am : Mode} {w2 : Word} {n : Nat}
    (h : am = .pop → n ≠ (low15 w2).toNat) : (s.popped t am w2).mem.read n = t.mem.read n := by
  cases am with
  | pop => exact Memory.read_write_other _ _ _ _ (h rfl)
  | _ => rfl

/-- The memory that a stack instruction leaves before the POP write-back: what the PUSH write-back left, and a word at SEA
only if the table of R34 has the instruction write there. -/
inductive ElementMemory (i : Instr) (s : State) (am : Mode) (w2 : Word) : Memory → Prop where
  | kept : ElementMemory i s am w2 (s.pushed am w2).mem
  | written (v : Word) (hwrite : AccessKind.write ∈ elementAccesses i) :
      ElementMemory i s am w2 ((s.pushed am w2).mem.write (s.elementAddr am w2).toNat v)

theorem ElementMemory.read_other {i : Instr} {s : State} {am : Mode} {w2 : Word} {m : Memory} {n : Nat}
    (h : ElementMemory i s am w2 m) (hsea : AccessKind.write ∈ elementAccesses i → n ≠ (s.elementAddr am w2).toNat) :
    m.read n = (s.pushed am w2).mem.read n := by
  cases h with
  | kept => rfl
  | written v hwrite => exact Memory.read_write_other _ _ _ _ (hsea hwrite)

theorem mem_of_combineWithA {f : Word → Word → Word} {overflows : Word → Word → Bool} {i : Instr} {am : Mode}
    {w2 : Word} {s t : State} (h : outcome (combineWithA f overflows am w2 s) = .next t) :
    ∃ u, t.mem = (s.popped u am w2).mem ∧ ElementMemory i s am w2 u.mem := by
  obtain ⟨-, -, rfl⟩ := (combineWithA_eq_ok_iff _ _ _ _ _ _).mp ((outcome_eq_next_iff _ _).mp h)
  exact ⟨_, rfl, .kept⟩

theorem mem_of_storeElement {v : Word} {i : Instr} {am : Mode} {w2 : Word} {s t : State}
    (hwrite : AccessKind.write ∈ elementAccesses i) (h : outcome (storeElement v am w2 s) = .next t) :
    ∃ u, t.mem = (s.popped u am w2).mem ∧ ElementMemory i s am w2 u.mem := by
  obtain ⟨-, -, rfl⟩ := (storeElement_eq_ok_iff _ _ _ _ _).mp ((outcome_eq_next_iff _ _).mp h)
  exact ⟨_, rfl, .written v hwrite⟩

/-- A stack instruction leaves the memory that the POP write-back makes of such a one. -/
theorem exec_stack_mem {i : Instr} {am : Mode} {w2 : Word} {s t : State} (hoperands : i.operands? = some (am, w2))
    (h : exec i s = .next t) : ∃ u, t.mem = (s.popped u am w2).mem ∧ ElementMemory i s am w2 u.mem := by
  cases i <;> cases hoperands
  case ands => exact mem_of_combineWithA h
  case adds => exact mem_of_combineWithA h
  case subs => exact mem_of_combineWithA h
  case iors => exact mem_of_combineWithA h
  case xors => exact mem_of_combineWithA h
  case stas => exact mem_of_storeElement (by simp [elementAccesses]) h
  case stxs => exact mem_of_storeElement (by simp [elementAccesses]) h
  case ldas =>
    obtain ⟨-, -, rfl⟩ := (execLdas_eq_next_iff am w2 s t).mp h
    exact ⟨_, rfl, .kept⟩
  case ldxs =>
    obtain ⟨-, -, rfl⟩ := (execLdxs_eq_next_iff am w2 s t).mp h
    exact ⟨_, rfl, .kept⟩
  case emas =>
    obtain ⟨-, -, rfl⟩ := (execEmas_eq_next_iff am w2 s t).mp h
    exact ⟨_, rfl, .written _ (by simp [elementAccesses])⟩
  case slas =>
    obtain ⟨-, -, -, rfl⟩ := (execSlas_eq_next_iff am w2 s t).mp h
    exact ⟨_, rfl, .kept⟩
  case cmss =>
    obtain ⟨-, -, rfl⟩ := (execCmss_eq_next_iff am w2 s t).mp h
    exact ⟨_, rfl, .kept⟩
  case imss =>
    obtain ⟨-, -, rfl⟩ := (execImss_eq_next_iff am w2 s t).mp h
    exact ⟨_, rfl, .written _ (by simp [elementAccesses])⟩
  case jmps =>
    obtain ⟨-, rfl⟩ := (execJmps_eq_next_iff am w2 s t).mp h
    exact ⟨_, rfl, .kept⟩
  case jsts =>
    obtain ⟨-, -, -, rfl⟩ := (execJsts_eq_next_iff am w2 s t).mp h
    exact ⟨_, rfl, .written _ (by simp [elementAccesses])⟩

/-- What a stack instruction leaves of memory: every word but the pointer that POP and PUSH write, and the element where
the table of R34 has the instruction write it. -/
theorem exec_stack_read_other {i : Instr} {am : Mode} {w2 : Word} {s t : State} {n : Nat}
    (hoperands : i.operands? = some (am, w2)) (h : exec i s = .next t)
    (hpush : am = .push → n ≠ (low15 w2).toNat)
    (hsea : AccessKind.write ∈ elementAccesses i → n ≠ (s.elementAddr am w2).toNat)
    (hpop : am = .pop → n ≠ (low15 w2).toNat) : t.mem.read n = s.mem.read n := by
  obtain ⟨u, hmem, hu⟩ := exec_stack_mem hoperands h
  calc t.mem.read n
      _ = (s.popped u am w2).mem.read n := by rw [hmem]
      _ = u.mem.read n := State.read_popped_other hpop
      _ = (s.pushed am w2).mem.read n := hu.read_other hsea
      _ = s.mem.read n := State.read_pushed_other hpush

theorem mem_eq_of_stepOverOneWord {s u t : State} (h : stepOverOneWord s u = .next t) : t.mem = u.mem := by
  obtain ⟨-, rfl⟩ := (stepOverOneWord_eq_next_iff _ _ _).mp h
  rfl

theorem exec_registerChange_mem {i : Instr} {s t : State} (hi : i ≠ .eix) (hoperands : i.operands? = none)
    (h : exec i s = .next t) : t.mem = s.mem := by
  cases i <;> cases hoperands
  case eix => exact absurd rfl hi
  case bca => exact (mem_eq_of_stepOverOneWord h).trans rfl
  case bcx => exact (mem_eq_of_stepOverOneWord h).trans rfl
  case bsa => exact (mem_eq_of_stepOverOneWord h).trans rfl
  case bsx => exact (mem_eq_of_stepOverOneWord h).trans rfl

theorem mem_writtenAddrs {l : List Access} {k : Addr} : k ∈ writtenAddrs l ↔ ⟨.write, k⟩ ∈ l := by
  simp only [writtenAddrs, List.mem_map, List.mem_filter, decide_eq_true_eq]
  constructor
  · rintro ⟨⟨kind, addr⟩, ⟨hmem, rfl⟩, rfl⟩
    exact hmem
  · exact fun hmem => ⟨_, ⟨hmem, rfl⟩, rfl⟩

/-- The writes of the steps 4 to 7 of R35. -/
theorem mem_writtenAddrs_stackAccesses {i : Instr} {am : Mode} {op : StackAccess} {k : Addr} :
    k ∈ writtenAddrs (stackAccesses i am op) ↔
      (am = .push ∧ k = op.spa) ∨ (.write ∈ elementAccesses i ∧ k = op.sea) ∨ (am = .pop ∧ k = op.spa) := by
  rw [mem_writtenAddrs]
  unfold stackAccesses
  cases am <;> simp [eq_comm]

theorem dataAccesses_of_operands {i : Instr} {am : Mode} {w2 : Word} {s : State} {l : List Access}
    (hoperands : i.operands? = some (am, w2)) (hl : dataAccesses i s = .ok l) :
    l = stackAccesses i am (s.access am w2) := by
  unfold dataAccesses at hl
  simp only [hoperands] at hl
  exact (pure_eq_ok_iff _ _).mp ((stackOperand_bind_eq_ok_iff _ _ _ _ _).mp hl).2

/-- Settles O44: a stack instruction leaves every word it has no write access to, and a register change instruction leaves
all of memory. -/
theorem memoryChangesOnlyWhereAccessesWrite : Obligations.MemoryChangesOnlyWhereAccessesWrite := by
  intro i s t l hi h hl n hn
  cases hoperands : i.operands? with
  | none => rw [exec_registerChange_mem hi hoperands h]
  | some operands =>
    obtain ⟨am, w2⟩ := operands
    rw [dataAccesses_of_operands hoperands hl] at hn
    exact exec_stack_read_other hoperands h
      (fun hpush => hn _ (mem_writtenAddrs_stackAccesses.mpr (.inl ⟨hpush, rfl⟩)))
      (fun hwrite => hn _ (mem_writtenAddrs_stackAccesses.mpr (.inr (.inl ⟨hwrite, rfl⟩))))
      (fun hpop => hn _ (mem_writtenAddrs_stackAccesses.mpr (.inr (.inr ⟨hpop, rfl⟩))))

end Sys2Proof.Machine
end

/-! ## Which parameter a refusal needs -/

section
namespace Sys2Proof.Machine

/-- The parameters under which a refusal can be met: for bit 15 (R76), for nonexistent memory (R31), for SLAS's mode (R110).
The other names need none. -/
def Refusal.Caused (c : Config) : Refusal → Prop
  | .notModelled _ => False
  | .addressBit15Set => c.bit15 = .refuse
  | .nonexistentMemory => c.memWords ≤ 32767
  | .slasNondirect => c.slasNondirect = .refuse
  | .pOutOfRange => True
  | .undefinedStackOpcode => True
  | .notExtendedInstruction => True
  | .eixNested => True

/-- Every refusal of the computation has its cause in the parameters. -/
def RefusalsCaused {α : Type} (c : Config) (e : Except Refusal α) : Prop := ∀ r, e = .error r → r.Caused c

theorem RefusalsCaused.ok {α : Type} {c : Config} (a : α) : RefusalsCaused c (.ok a) := nofun

theorem RefusalsCaused.error {α : Type} {c : Config} {r : Refusal} (h : r.Caused c) :
    RefusalsCaused (α := α) c (.error r) := by
  rintro _ ⟨⟩
  exact h

theorem RefusalsCaused.bind {α β : Type} {c : Config} {e : Except Refusal α} {f : α → Except Refusal β}
    (he : RefusalsCaused c e) (hf : ∀ a, e = .ok a → RefusalsCaused c (f a)) : RefusalsCaused c (e >>= f) := by
  cases e with
  | ok a => exact hf a rfl
  | error r => exact .error (he r rfl)

theorem advance_refusalsCaused (c : Config) (k : Addr) (n : Nat) : RefusalsCaused c (advance k n) := by
  unfold advance
  split
  · exact .ok _
  · exact .error trivial

theorem addr15_refusalsCaused (c : Config) (v : Word) : RefusalsCaused c (addr15 c v) := by
  unfold addr15
  split
  next => exact .ok _
  next hrefuse =>
    split
    · exact .error hrefuse
    · exact .ok _

/-- An address is below 32768, so it is only beyond an installed memory of fewer words (R31). -/
theorem checkInstalled_refusalsCaused (s : State) (k : Addr) : RefusalsCaused s.cfg (checkInstalled s k) := by
  unfold checkInstalled
  split
  next => exact .ok _
  next hbeyond =>
    refine .error (show s.cfg.memWords ≤ 32767 from ?_)
    have hk := k.isLt
    omega

theorem readWord_refusalsCaused (s : State) (k : Addr) : RefusalsCaused s.cfg (readWord s k) :=
  (checkInstalled_refusalsCaused s k).bind fun _ _ => .ok _

theorem writeWord_refusalsCaused (s : State) (k : Addr) (v : Word) : RefusalsCaused s.cfg (writeWord s k v) :=
  (checkInstalled_refusalsCaused s k).bind fun _ _ => .ok _

theorem accessAt_refusalsCaused (am : Mode) (spa : Addr) (sp : Word) (s : State) :
    RefusalsCaused s.cfg (accessAt am spa sp s) := by
  refine (addr15_refusalsCaused _ _).bind fun sea _ => ?_
  cases am with
  | pop => exact (addr15_refusalsCaused _ _).bind fun _ _ => .ok _
  | _ => exact .ok _

theorem stackOperand_refusalsCaused (am : Mode) (w2 : Word) (s : State) :
    RefusalsCaused s.cfg (stackOperand am w2 s) :=
  (advance_refusalsCaused _ _ _).bind fun _ _ =>
    (addr15_refusalsCaused _ _).bind fun _ _ =>
      (readWord_refusalsCaused _ _).bind fun _ _ => accessAt_refusalsCaused _ _ _ _

theorem stackOperand_st_cfg {am : Mode} {w2 : Word} {s : State} {op : StackAccess}
    (h : stackOperand am w2 s = .ok op) : op.st.cfg = s.cfg := by
  obtain ⟨-, rfl⟩ := (stackOperand_eq_ok_iff _ _ _ _).mp h
  exact State.pushed_cfg _ _ _

theorem readElement_st_cfg {am : Mode} {w2 : Word} {s : State} {r : StackAccess × Word}
    (h : readElement am w2 s = .ok r) : r.1.st.cfg = s.cfg := by
  obtain ⟨-, rfl⟩ := (readElement_eq_ok_iff _ _ _ _).mp h
  exact State.pushed_cfg _ _ _

theorem readElement_refusalsCaused (am : Mode) (w2 : Word) (s : State) :
    RefusalsCaused s.cfg (readElement am w2 s) :=
  (stackOperand_refusalsCaused _ _ _).bind fun op hop =>
    stackOperand_st_cfg hop ▸ (readWord_refusalsCaused op.st op.sea).bind fun _ _ => .ok _

theorem checkSlasMode_refusalsCaused (c : Config) (am : Mode) : RefusalsCaused c (checkSlasMode c am) := by
  unfold checkSlasMode
  split
  next hrefuse => exact .error hrefuse.2
  next => exact .ok _

/-- The outcome of such a computation is refused only with the cause. -/
theorem RefusalsCaused.outcome {c : Config} {e : Except Refusal State} {r : Refusal} (he : RefusalsCaused c e)
    (h : Machine.outcome e = .refused r) : r.Caused c :=
  he r ((outcome_eq_refused_iff _ _).mp h)

/-- What reads the element and then only forms a new P. -/
theorem readElement_advance_refusalsCaused {am : Mode} {w2 : Word} {s : State} {n : StackAccess × Word → Nat}
    {t : StackAccess × Word → Addr → State} :
    RefusalsCaused s.cfg (readElement am w2 s >>= fun r => advance s.p (n r) >>= fun q => pure (t r q)) :=
  (readElement_refusalsCaused _ _ _).bind fun _ _ => (advance_refusalsCaused _ _ _).bind fun _ _ => .ok _

/-- What reads the element, writes it and then only forms a new P. -/
theorem readElement_writeWord_advance_refusalsCaused {am : Mode} {w2 : Word} {s : State}
    {v : StackAccess × Word → Word} {n : StackAccess × Word → Nat} {t : StackAccess × Word → State → Addr → State} :
    RefusalsCaused s.cfg (readElement am w2 s >>= fun r => writeWord r.1.st r.1.sea (v r) >>= fun u =>
      advance s.p (n r) >>= fun q => pure (t r u q)) :=
  (readElement_refusalsCaused _ _ _).bind fun _ hr =>
    (readElement_st_cfg hr ▸ writeWord_refusalsCaused _ _ _).bind fun _ _ =>
      (advance_refusalsCaused _ _ _).bind fun _ _ => .ok _

theorem storeElement_refusalsCaused (v : Word) (am : Mode) (w2 : Word) (s : State) :
    RefusalsCaused s.cfg (storeElement v am w2 s) :=
  (stackOperand_refusalsCaused _ _ _).bind fun _ hop =>
    (stackOperand_st_cfg hop ▸ writeWord_refusalsCaused _ _ _).bind fun _ _ =>
      (advance_refusalsCaused _ _ _).bind fun _ _ => .ok _

theorem execSlas_refused_caused {am : Mode} {w2 : Word} {s : State} {r : Refusal}
    (h : execSlas am w2 s = .refused r) : r.Caused s.cfg :=
  ((checkSlasMode_refusalsCaused _ _).bind fun _ _ =>
    (stackOperand_refusalsCaused _ _ _).bind fun _ _ =>
      (advance_refusalsCaused _ _ _).bind fun _ _ => .ok _).outcome h

theorem execJmps_refused_caused {am : Mode} {w2 : Word} {s : State} {r : Refusal}
    (h : execJmps am w2 s = .refused r) : r.Caused s.cfg :=
  ((stackOperand_refusalsCaused _ _ _).bind fun _ _ => .ok _).outcome h

theorem execJsts_refused_caused {am : Mode} {w2 : Word} {s : State} {r : Refusal}
    (h : execJsts am w2 s = .refused r) : r.Caused s.cfg :=
  ((stackOperand_refusalsCaused _ _ _).bind fun _ hop =>
    (advance_refusalsCaused _ _ _).bind fun _ _ =>
      (advance_refusalsCaused _ _ _).bind fun _ _ =>
        (stackOperand_st_cfg hop ▸ writeWord_refusalsCaused _ _ _).bind fun _ _ => .ok _).outcome h

theorem stepOverOneWord_refused_caused {s u : State} {r : Refusal} (h : stepOverOneWord s u = .refused r) :
    r.Caused s.cfg :=
  ((advance_refusalsCaused _ _ _).bind fun _ _ => .ok _).outcome h

theorem execTarget_refused_caused {i : Instr} {s : State} {r : Refusal} (h : execTarget i s = .refused r) :
    r.Caused s.cfg := by
  cases i with
  | ands => exact readElement_advance_refusalsCaused.outcome h
  | adds => exact readElement_advance_refusalsCaused.outcome h
  | subs => exact readElement_advance_refusalsCaused.outcome h
  | iors => exact readElement_advance_refusalsCaused.outcome h
  | xors => exact readElement_advance_refusalsCaused.outcome h
  | ldas => exact readElement_advance_refusalsCaused.outcome h
  | ldxs => exact readElement_advance_refusalsCaused.outcome h
  | cmss => exact readElement_advance_refusalsCaused.outcome h
  | emas => exact readElement_writeWord_advance_refusalsCaused.outcome h
  | imss => exact readElement_writeWord_advance_refusalsCaused.outcome h
  | stas => exact (storeElement_refusalsCaused _ _ _ _).outcome h
  | stxs => exact (storeElement_refusalsCaused _ _ _ _).outcome h
  | slas => exact execSlas_refused_caused h
  | jmps => exact execJmps_refused_caused h
  | jsts => exact execJsts_refused_caused h
  | eix =>
    cases h
    trivial
  | bca => exact stepOverOneWord_refused_caused h
  | bcx => exact stepOverOneWord_refused_caused h
  | bsa => exact stepOverOneWord_refused_caused h
  | bsx => exact stepOverOneWord_refused_caused h

theorem decodeFetched_refusalsCaused (c : Config) (w1 w2 : Word) : RefusalsCaused c (decodeFetched w1 w2) := by
  unfold decodeFetched
  split
  next => exact .ok _
  next e hdecode => cases e <;> exact .error trivial

theorem instrAt_refusalsCaused (w1 : Word) (loc : Addr) (s : State) : RefusalsCaused s.cfg (instrAt w1 loc s) := by
  unfold instrAt
  split
  · exact (advance_refusalsCaused _ _ _).bind fun _ _ =>
      (readWord_refusalsCaused _ _).bind fun _ _ => decodeFetched_refusalsCaused _ _ _
  · exact decodeFetched_refusalsCaused _ _ _

theorem fetch_refusalsCaused (s : State) : RefusalsCaused s.cfg (fetch s) :=
  (readWord_refusalsCaused _ _).bind fun _ _ => instrAt_refusalsCaused _ _ _

theorem eixWord_refusalsCaused (s : State) : RefusalsCaused s.cfg (eixWord s) :=
  (advance_refusalsCaused _ _ _).bind fun _ _ =>
    (addr15_refusalsCaused _ _).bind fun _ _ => (readWord_refusalsCaused _ _).bind fun _ _ => .ok _

theorem eixTarget_refusalsCaused (s : State) : RefusalsCaused s.cfg (eixTarget s) :=
  (eixWord_refusalsCaused s).bind fun _ _ => (instrAt_refusalsCaused _ _ _).bind fun _ _ => .ok _

theorem execEix_refused_caused {s : State} {r : Refusal} (h : execEix s = .refused r) : r.Caused s.cfg := by
  unfold execEix at h
  split at h
  next i loc htarget => exact execTarget_refused_caused (s := s.setP loc) h
  next r' htarget =>
    cases h
    exact eixTarget_refusalsCaused s _ htarget

theorem exec_refused_caused {i : Instr} {s : State} {r : Refusal} (h : exec i s = .refused r) : r.Caused s.cfg := by
  by_cases hi : i = .eix
  · subst hi
    exact execEix_refused_caused h
  · exact execTarget_refused_caused ((execTarget_eq_exec i s hi).trans h)

theorem step_refused_caused {s : State} {r : Refusal} (h : step s = .refused r) : r.Caused s.cfg := by
  unfold step at h
  split at h
  next => cases h
  next =>
    split at h
    next i hfetch => exact exec_refused_caused h
    next r' hfetch =>
      cases h
      exact fetch_refusalsCaused s _ hfetch

/-- Settles O11: each part of the fetch and of every instruction is refused only with the cause of its own check. -/
theorem stepRefusalsHaveTheirCause : Obligations.StepRefusalsHaveTheirCause := by
  intro s r h
  have hcaused : r.Caused s.cfg := step_refused_caused h
  cases r <;> exact hcaused

end Sys2Proof.Machine
end

/-! ## The fields of a stack instruction's first word (R51) -/

section
namespace Sys2Proof

@[simp] theorem modeOfCode_code (am : Mode) : modeOfCode am.code = am := by cases am <;> rfl

@[simp] theorem code_modeOfCode : ∀ c : BitVec 2, (modeOfCode c).code = c := by decide

@[simp] theorem opField_stackWord (op : BitVec 5) (am : Mode) : opField (stackWord op am) = op := by
  rw [opField, stackWord, BitVec.extractLsb'_append_eq_of_le (by decide),
    BitVec.extractLsb'_append_eq_of_le (by decide)]
  exact BitVec.extractLsb'_append_eq_right

@[simp] theorem amField_stackWord (op : BitVec 5) (am : Mode) : amField (stackWord op am) = am.code :=
  BitVec.extractLsb'_append_eq_right

theorem stackWord_inj {op op' : BitVec 5} {am am' : Mode} (h : stackWord op am = stackWord op' am') :
    op = op' ∧ am = am' := by
  have hop := congrArg opField h
  have ham := congrArg (fun w => modeOfCode (amField w)) h
  simpa using And.intro hop ham

@[simp] theorem isStackFormat_stackWord : ∀ (op : BitVec 5) (am : Mode), isStackFormat (stackWord op am) = true := by
  rintro op (_ | _ | _ | _) <;> revert op <;> decide

theorem stackWord_ne {w : Word} (h : isStackFormat w = false) (op : BitVec 5) (am : Mode) : stackWord op am ≠ w := by
  rintro rfl
  rw [isStackFormat_stackWord] at h
  cases h

/-- What a mask keeps whole, the masked word shows. -/
theorem extractLsb'_eq_of_and_eq {w mask v : Word} {start len : Nat} (h : w &&& mask = v)
    (hmask : mask.extractLsb' start len = BitVec.allOnes len) : w.extractLsb' start len = v.extractLsb' start len := by
  rw [← h, BitVec.extractLsb'_and, hmask, BitVec.and_allOnes]

/-- A word of the stack format has nothing but its OP CODE and AM fields to vary (R51). -/
theorem eq_stackWord_of_isStackFormat {w : Word} (h : isStackFormat w = true) :
    w = stackWord (opField w) (modeOfCode (amField w)) := by
  have hbits : w &&& 0xFC1C = 0x1418 := eq_of_beq h
  have hhigh : w.extractLsb' 10 6 = 0b000101#6 := extractLsb'_eq_of_and_eq hbits rfl
  have hmid : w.extractLsb' 2 3 = 0b110#3 := extractLsb'_eq_of_and_eq hbits rfl
  have hfields : w.extractLsb' 10 6 ++ w.extractLsb' 5 5 ++ w.extractLsb' 2 3 ++ w.extractLsb' 0 2 = w := by
    rw [BitVec.extractLsb'_append_extractLsb'_eq_extractLsb' (rfl : 10 = 5 + 5),
      BitVec.extractLsb'_append_extractLsb'_eq_extractLsb' (rfl : 5 = 2 + 3),
      BitVec.extractLsb'_append_extractLsb'_eq_extractLsb' (rfl : 2 = 0 + 2), BitVec.extractLsb'_eq_self]
  rw [stackWord, code_modeOfCode, opField, amField, ← hhigh, ← hmid, hfields]

theorem extractLsb'_stackWord (op : BitVec 5) (am : Mode) :
    (stackWord op am).extractLsb' 2 14 = 0b000101#6 ++ op ++ 0b110#3 :=
  BitVec.extractLsb'_append_eq_left

/-- The mask of a stack row leaves AM free (R58). -/
theorem eq_stackWord_of_and_eq {w : Word} {op : BitVec 5} (h : w &&& 0xFFFC = stackWord op .direct) :
    w = stackWord op (modeOfCode (amField w)) := by
  have hhigh : w.extractLsb' 2 14 = 0b000101#6 ++ op ++ 0b110#3 :=
    (extractLsb'_eq_of_and_eq h rfl).trans (extractLsb'_stackWord op .direct)
  have hfields : w.extractLsb' 2 14 ++ w.extractLsb' 0 2 = w := BitVec.extractLsb'_append_extractLsb'
  rw [stackWord, code_modeOfCode, amField, ← hhigh, hfields]

end Sys2Proof
end

/-! ## What the decoder answers, in terms of the encoder -/

section
namespace Sys2Proof

/-- The two OP CODE tables, the decoder's and the encoder's, are one (R52). -/
theorem stackInstr_eq_some_iff (op : BitVec 5) (am : Mode) (spa : Word) (i : Instr) :
    stackInstr op am spa = some i ↔ encode i = [stackWord op am, spa] := by
  constructor
  · intro h
    unfold stackInstr at h
    split at h <;> cases h
    all_goals
      next hop => exact congrArg (fun op => [stackWord op am, spa]) (BitVec.eq_of_toNat_eq hop.symm)
  · intro h
    cases i <;> simp only [encode, List.cons.injEq, and_true, List.nil_eq, reduceCtorEq, and_false] at h
    all_goals
      obtain ⟨hword, rfl⟩ := h
      obtain ⟨rfl, rfl⟩ := stackWord_inj hword
      rfl

/-- A two-word instruction has the first word of R51. -/
theorem exists_stackWord_of_encode {i : Instr} {w1 w2 : Word} (h : encode i = [w1, w2]) :
    ∃ op am, w1 = stackWord op am := by
  cases i <;> simp only [encode, List.cons.injEq, reduceCtorEq, and_false] at h <;> exact ⟨_, _, h.1.symm⟩

theorem isStackFormat_of_encode_singleton {i : Instr} {w : Word} (h : encode i = [w]) : isStackFormat w = false := by
  cases i <;> simp only [encode, List.cons.injEq, reduceCtorEq, and_true, and_false] at h <;> exact h ▸ rfl

/-- Each instruction has one word or two (R50). -/
theorem encode_eq_one_or_two (i : Instr) : (∃ w, encode i = [w]) ∨ ∃ w1 w2, encode i = [w1, w2] := by
  cases i <;> simp [encode]

/-- The OP CODE alone decides whether R52 lists the word. -/
theorem stackInstr_isSome (op : BitVec 5) (am am' : Mode) (spa spa' : Word) :
    (stackInstr op am spa).isSome = (stackInstr op am' spa').isSome := by
  unfold stackInstr
  split <;> rfl

theorem decode_of_isStackFormat {w1 : Word} (h : isStackFormat w1 = true) (w2 : Word) (i : Instr) :
    decode w1 w2 = .ok i ↔ encode i = [w1, w2] := by
  obtain ⟨op, am, rfl⟩ : ∃ op am, w1 = stackWord op am := ⟨_, _, eq_stackWord_of_isStackFormat h⟩
  rw [← stackInstr_eq_some_iff, decode, if_neg (stackWord_ne rfl op am), if_neg (stackWord_ne rfl op am),
    if_neg (stackWord_ne rfl op am), if_neg (stackWord_ne rfl op am), if_neg (stackWord_ne rfl op am), if_pos h,
    opField_stackWord, amField_stackWord, modeOfCode_code]
  cases stackInstr op am w2 <;> simp

theorem decode_of_not_isStackFormat {w1 : Word} (h : isStackFormat w1 = false) (w2 : Word) (i : Instr) :
    decode w1 w2 = .ok i ↔ encode i = [w1] := by
  constructor
  · intro hdecode
    simp only [decode, h, Bool.false_eq_true, if_false] at hdecode
    split_ifs at hdecode
    all_goals
      cases hdecode
      subst w1
      rfl
  · intro hencode
    cases i <;> simp only [encode, List.cons.injEq, reduceCtorEq, and_true, and_false] at hencode
    all_goals
      subst hencode
      rfl

/-- A pair of words decodes to the instruction whose encoding it begins with (R58). -/
theorem decode_eq_ok_iff (w1 w2 : Word) (i : Instr) :
    decode w1 w2 = .ok i ↔ encode i = [w1] ∨ encode i = [w1, w2] := by
  cases hformat : isStackFormat w1 with
  | true =>
    have hnone : encode i ≠ [w1] := fun h =>
      Bool.noConfusion ((isStackFormat_of_encode_singleton h).symm.trans hformat)
    rw [decode_of_isStackFormat hformat, or_iff_right hnone]
  | false =>
    have hnone : encode i ≠ [w1, w2] := fun h => by
      obtain ⟨op, am, hw1⟩ := exists_stackWord_of_encode h
      exact stackWord_ne hformat op am hw1.symm
    rw [decode_of_not_isStackFormat hformat, or_iff_left hnone]

/-- The first word of a one-word instruction has no second (R50). -/
theorem hasSecondWord_of_encode_singleton {i : Instr} {w : Word} (h : encode i = [w]) : hasSecondWord w = false := by
  rw [hasSecondWord, isStackFormat_of_encode_singleton h, Bool.false_and]

/-- A first word has a second exactly when it is the first word of a two-word instruction (R50). -/
theorem hasSecondWord_iff (w1 w2 : Word) : hasSecondWord w1 = true ↔ ∃ i, encode i = [w1, w2] := by
  constructor
  · intro h
    obtain ⟨hformat, hop⟩ := Bool.and_eq_true_iff.mp h
    rw [stackInstr_isSome _ _ (modeOfCode (amField w1)) _ w2, Option.isSome_iff_exists] at hop
    obtain ⟨i, hi⟩ := hop
    rw [stackInstr_eq_some_iff, ← eq_stackWord_of_isStackFormat hformat] at hi
    exact ⟨i, hi⟩
  · rintro ⟨i, hi⟩
    obtain ⟨op, am, rfl⟩ := exists_stackWord_of_encode hi
    rw [hasSecondWord, isStackFormat_stackWord, opField_stackWord, Bool.true_and, stackInstr_isSome _ _ am _ w2,
      (stackInstr_eq_some_iff op am w2 i).mpr hi, Option.isSome_some]

/-- A two-word instruction has the one encoding (R50, R58). -/
theorem decode_of_hasSecondWord {w1 w2 : Word} {i : Instr} (h : hasSecondWord w1 = true) :
    decode w1 w2 = .ok i ↔ encode i = [w1, w2] :=
  (decode_eq_ok_iff w1 w2 i).trans
    (or_iff_right fun hone => Bool.noConfusion ((hasSecondWord_of_encode_singleton hone).symm.trans h))

/-- A one-word instruction has the one encoding (R50, R58). -/
theorem decode_of_not_hasSecondWord {w1 w2 : Word} {i : Instr} (h : hasSecondWord w1 = false) :
    decode w1 w2 = .ok i ↔ encode i = [w1] :=
  (decode_eq_ok_iff w1 w2 i).trans
    (or_iff_left fun htwo => Bool.noConfusion (h.symm.trans ((hasSecondWord_iff w1 w2).mpr ⟨i, htwo⟩)))

theorem decodeWords_two {w1 w2 : Word} {rest ws : List Word} {i : Instr} (h : hasSecondWord w1 = true) :
    decodeWords (w1 :: w2 :: ws) = .ok (i, rest) ↔ encode i = [w1, w2] ∧ ws = rest := by
  rw [← decode_of_hasSecondWord h, decodeWords, if_pos h]
  cases decode w1 w2 <;> simp

theorem decodeWords_one {w1 : Word} {rest ws : List Word} {i : Instr} (h : hasSecondWord w1 = false) :
    decodeWords (w1 :: ws) = .ok (i, rest) ↔ encode i = [w1] ∧ ws = rest := by
  rw [← decode_of_not_hasSecondWord (w2 := 0) h, decodeWords.eq_def]
  simp only [h, Bool.false_eq_true, if_false]
  cases decode w1 0 <;> simp

theorem decodeWords_truncated {w1 : Word} (h : hasSecondWord w1 = true) : decodeWords [w1] = .error .truncated :=
  if_pos h

end Sys2Proof
end

/-! ## Decoding and encoding are inverse -/

section
namespace Sys2Proof

/-- Settles O1: the first word tells the decoder how many words the encoder has written. -/
theorem decodeOfEncodeIsTheInstruction : Obligations.DecodeOfEncodeIsTheInstruction := by
  intro i rest
  rcases encode_eq_one_or_two i with ⟨w, h⟩ | ⟨w1, w2, h⟩
  · rw [h]
    exact (decodeWords_one (hasSecondWord_of_encode_singleton h)).mpr ⟨h, rfl⟩
  · rw [h]
    exact (decodeWords_two ((hasSecondWord_iff w1 w2).mpr ⟨i, h⟩)).mpr ⟨h, rfl⟩

/-- Settles O2: each branch of `decodeWords` that answers has met the words of an encoding. -/
theorem decodedWordsAreItsEncoding : Obligations.DecodedWordsAreItsEncoding := by
  intro ws i rest h
  match ws, h with
  | w1 :: ws, h =>
    cases hsecond : hasSecondWord w1 with
    | false =>
      obtain ⟨hone, rfl⟩ := (decodeWords_one hsecond).mp h
      rw [hone, List.singleton_append]
    | true =>
      match ws, h with
      | [], h =>
        rw [decodeWords_truncated hsecond] at h
        cases h
      | w2 :: ws, h =>
        obtain ⟨htwo, rfl⟩ := (decodeWords_two hsecond).mp h
        rw [htwo, List.cons_append, List.singleton_append]

/-- Settles O5: a first word decodes to one of the five exactly when it is the whole encoding. -/
theorem registerChangeWordsDecode : Obligations.RegisterChangeWordsDecode := by
  intro w1 w2
  simp [decode_eq_ok_iff, encode, eq_comm (b := w1)]

/-- Settles O6: each skeleton plus the AM code is the first of the two words that the encoder writes. -/
theorem stackWordsDecodeInEveryMode : Obligations.StackWordsDecodeInEveryMode := by
  intro am w2
  have hdecode : ∀ w1 i, encode i = [w1, w2] → decode w1 w2 = .ok i :=
    fun w1 i h => (decode_eq_ok_iff w1 w2 i).mpr (.inr h)
  cases am <;> and_intros <;> exact hdecode _ _ rfl

end Sys2Proof
end

/-! ## The rows of the opcode table and the decoder (R58) -/

section
namespace Sys2Proof

/-- A register change row has no free bit, and its skeleton is the one word of its instruction (R57). -/
theorem exists_encode_of_mem_registerRows {r : OpcodeRow} (h : r ∈ registerRows) :
    r.mask = 0xFFFF ∧ ∃ i : Instr, encode i = [r.skeleton] ∧ i.row? = some r := by
  unfold registerRows at h
  fin_cases h
  exacts [⟨rfl, .eix, rfl, rfl⟩, ⟨rfl, .bsx, rfl, rfl⟩, ⟨rfl, .bsa, rfl, rfl⟩, ⟨rfl, .bcx, rfl, rfl⟩,
    ⟨rfl, .bca, rfl, rfl⟩]

/-- A stack row leaves AM free, and its skeleton holds the OP CODE of its instruction with AM = 00 (R52, R53). -/
theorem exists_stackInstr_of_mem_stackRows {r : OpcodeRow} (h : r ∈ stackRows) (am : Mode) (spa : Word) :
    r.mask = 0xFFFC ∧ r.skeleton = stackWord (opField r.skeleton) .direct ∧
      ∃ i, stackInstr (opField r.skeleton) am spa = some i ∧ i.row? = some r := by
  unfold stackRows at h
  fin_cases h <;> exact ⟨rfl, rfl, _, rfl, rfl⟩

/-- A word that a row covers decodes to an instruction of the row, whatever follows. -/
theorem decode_of_covers {r : OpcodeRow} (hr : r ∈ opcodeRows) {w1 : Word} (hcovers : r.covers w1 = true)
    (w2 : Word) : ∃ i, decode w1 w2 = .ok i ∧ i.row? = some r := by
  have hbits : w1 &&& r.mask = r.skeleton := eq_of_beq hcovers
  rcases List.mem_append.mp hr with hregister | hstack
  · obtain ⟨hmask, i, hencode, hrow⟩ := exists_encode_of_mem_registerRows hregister
    rw [hmask] at hbits
    have hw : w1 = r.skeleton := BitVec.and_allOnes.symm.trans hbits
    exact ⟨i, (decode_eq_ok_iff w1 w2 i).mpr (.inl (hw ▸ hencode)), hrow⟩
  · obtain ⟨hmask, hskeleton, i, hi, hrow⟩ :=
      exists_stackInstr_of_mem_stackRows hstack (modeOfCode (amField w1)) w2
    rw [hmask, hskeleton] at hbits
    have hencode := (stackInstr_eq_some_iff _ _ _ _).mp hi
    rw [← eq_stackWord_of_and_eq hbits] at hencode
    exact ⟨i, (decode_eq_ok_iff w1 w2 i).mpr (.inr hencode), hrow⟩

/-- FirstWordInTable, of every instruction. -/
theorem firstWordInTable (i : Instr) : Laws.FirstWordInTable.Statement i := by
  cases i with
  | ands am spa => exact Laws.FirstWordInTable.ands am spa
  | adds am spa => exact Laws.FirstWordInTable.adds am spa
  | subs am spa => exact Laws.FirstWordInTable.subs am spa
  | stas am spa => exact Laws.FirstWordInTable.stas am spa
  | iors am spa => exact Laws.FirstWordInTable.iors am spa
  | xors am spa => exact Laws.FirstWordInTable.xors am spa
  | ldas am spa => exact Laws.FirstWordInTable.ldas am spa
  | emas am spa => exact Laws.FirstWordInTable.emas am spa
  | slas am spa => exact Laws.FirstWordInTable.slas am spa
  | cmss am spa => exact Laws.FirstWordInTable.cmss am spa
  | imss am spa => exact Laws.FirstWordInTable.imss am spa
  | ldxs am spa => exact Laws.FirstWordInTable.ldxs am spa
  | stxs am spa => exact Laws.FirstWordInTable.stxs am spa
  | jmps am spa => exact Laws.FirstWordInTable.jmps am spa
  | jsts am spa => exact Laws.FirstWordInTable.jsts am spa
  | eix => exact Laws.FirstWordInTable.eix
  | bsx => exact Laws.FirstWordInTable.bsx
  | bsa => exact Laws.FirstWordInTable.bsa
  | bcx => exact Laws.FirstWordInTable.bcx
  | bca => exact Laws.FirstWordInTable.bca

theorem head_encode_of_decode {w1 w2 : Word} {i : Instr} (h : decode w1 w2 = .ok i) : (encode i).head? = some w1 := by
  rcases (decode_eq_ok_iff w1 w2 i).mp h with hone | htwo
  · rw [hone, List.head?_cons]
  · rw [htwo, List.head?_cons]

/-- A word that decodes is covered by the row of what it decodes to (R58). -/
theorem row_covers_of_decode {w1 w2 : Word} {i : Instr} (h : decode w1 w2 = .ok i) :
    ∃ r, i.row? = some r ∧ r.covers w1 = true := by
  obtain ⟨r, hrow, hcovers, -⟩ := firstWordInTable i
  rw [head_encode_of_decode h] at hcovers
  exact ⟨r, hrow, Option.some.inj hcovers⟩

/-- Settles O4: a word that decodes stands first in the encoding, which its instruction's own row covers. -/
theorem wordDecodesToTheRowThatCoversIt : Obligations.WordDecodesToTheRowThatCoversIt := by
  intro r hr w1 w2
  constructor
  · exact fun hcovers => decode_of_covers hr hcovers w2
  · rintro ⟨i, hdecode, hrow⟩
    obtain ⟨r', hrow', hcovers⟩ := row_covers_of_decode hdecode
    obtain rfl : r' = r := Option.some.inj (hrow'.symm.trans hrow)
    exact hcovers

/-- Settles O3: both rows are the row of the one instruction that the word decodes to. -/
theorem opcodeRowsAreDisjoint : Obligations.OpcodeRowsAreDisjoint := by
  intro r₁ h₁ r₂ h₂ w hcovers₁ hcovers₂
  obtain ⟨i, hdecode₁, hrow₁⟩ := decode_of_covers h₁ hcovers₁ 0
  obtain ⟨j, hdecode₂, hrow₂⟩ := decode_of_covers h₂ hcovers₂ 0
  obtain rfl : i = j := Except.ok.inj (hdecode₁.symm.trans hdecode₂)
  exact Option.some.inj (hrow₁.symm.trans hrow₂)

theorem decode_ne_ok_of_not_covers {w1 : Word} (h : ∀ r ∈ opcodeRows, r.covers w1 = false) (w2 : Word) (i : Instr) :
    decode w1 w2 ≠ .ok i := by
  intro hdecode
  obtain ⟨r, hrow, hcovers⟩ := row_covers_of_decode hdecode
  rw [h r (List.mem_of_find?_eq_some hrow)] at hcovers
  cases hcovers

/-- What does not decode is named by its format alone (R59). -/
theorem decode_error_eq {w1 w2 : Word} {e : DecodeError} (h : decode w1 w2 = .error e) :
    e = if isStackFormat w1 then .undefinedStackOpcode else .notExtendedInstruction := by
  unfold decode at h
  split_ifs at h ⊢
  · split at h <;> cases h
    rfl
  · cases h
    rfl

end Sys2Proof
end

/-! ## The step on an encoded instruction, and on a word that no row covers -/

section
namespace Sys2Proof.Machine

theorem instrAt_of_not_covers {w1 : Word} (h : ∀ r ∈ opcodeRows, r.covers w1 = false) (loc : Addr) (s : State) :
    instrAt w1 loc s =
      .error (if w1 &&& 0xFC1C = 0x1418 then .undefinedStackOpcode else .notExtendedInstruction) := by
  have hnone := decode_ne_ok_of_not_covers h 0
  have hsecond : ¬ hasSecondWord w1 = true := fun hsecond => by
    obtain ⟨i, hi⟩ := (hasSecondWord_iff w1 0).mp hsecond
    exact hnone i ((decode_of_hasSecondWord hsecond).mpr hi)
  rw [instrAt, if_neg hsecond, decodeFetched]
  cases hdecode : decode w1 0 with
  | ok i => exact absurd hdecode (hnone i)
  | error e =>
    simp only [decode_error_eq hdecode, isStackFormat, beq_iff_eq]
    split_ifs <;> rfl

/-- Settles O10: the fetch takes such a word for a one-word instruction, and the decoder refuses it. -/
theorem uncoveredWordsAreRefusedByName : Obligations.UncoveredWordsAreRefusedByName := by
  intro s hhalt hin h
  refine step_of_fetch_error hhalt ?_
  rw [fetch_of_readWord_ok (readWord_eq_ok hin), instrAt_of_not_covers h]

theorem step_of_fetch_ok {s : State} {i : Instr} (hhalt : s.cfg.haltAddr ≠ some s.p) (h : fetch s = .ok i) :
    step s = exec i s := by
  rw [step, if_neg hhalt, h]

/-- Settles O8: the fetch reads as many words as were encoded, and decodes them to the instruction. -/
theorem stepRunsTheEncodedInstruction : Obligations.StepRunsTheEncodedInstruction := by
  intro s i hhalt hwords
  refine step_of_fetch_ok hhalt ((fetch_eq_ok_iff s i).mpr ?_)
  rw [instrAt_eq_ok_iff]
  rcases encode_eq_one_or_two i with ⟨w, h⟩ | ⟨w1, w2, h⟩
  · rw [h] at hwords
    obtain ⟨-, hin, hw⟩ := hwords 0 w rfl
    have hload : s.load s.p = w := hw
    have hsecond := hasSecondWord_of_encode_singleton h
    rw [hload, if_neg (Bool.eq_false_iff.mp hsecond)]
    exact ⟨hin, (decode_of_not_hasSecondWord hsecond).mpr h⟩
  · rw [h] at hwords
    obtain ⟨-, hin1, hw1⟩ := hwords 0 w1 rfl
    obtain ⟨hp, hin2, hw2⟩ := hwords 1 w2 rfl
    have hnext : (s.p + 1).toNat = s.p.toNat + 1 := advance_toNat (advance_eq_ok hp)
    have hload1 : s.load s.p = w1 := hw1
    have hload2 : s.load (s.p + 1) = w2 := by rwa [State.load, hnext]
    have hsecond := (hasSecondWord_iff w1 w2).mpr ⟨i, h⟩
    rw [hload1, hload2, if_pos hsecond]
    exact ⟨hin1, hp, by rwa [State.installed, hnext], (decode_of_hasSecondWord hsecond).mpr h⟩

end Sys2Proof.Machine
end

/-! ## The assembler's lines and the instructions they stand for (R61 to R63) -/

section
namespace Sys2Proof.Machine

/-- The operand field of an address and a mode (R61, R62; log entry 22). -/
def lineOperands (am : Mode) (n : Nat) : List AsmOperand :=
  match am with
  | .direct => [.value n]
  | .indexed => [.value n, .character '@']
  | .pop => [.value n, .character '+']
  | .push => [.value n, .character '-']

theorem class5Instr_eq_some_iff (opcode : String) (i : Instr) :
    class5Instr opcode = some i ↔ i.mnemonic = opcode ∧ i.operands? = none := by
  constructor
  · intro h
    unfold class5Instr at h
    split at h <;> cases h <;> exact ⟨rfl, rfl⟩
  · rintro ⟨rfl, h⟩
    cases i <;> cases h <;> rfl

theorem class10Instr_eq_some_iff (opcode : String) (am : Mode) (spa : Word) (i : Instr) :
    class10Instr opcode am spa = some i ↔ i.mnemonic = opcode ∧ i.operands? = some (am, spa) := by
  constructor
  · intro h
    unfold class10Instr at h
    split at h <;> cases h <;> exact ⟨rfl, rfl⟩
  · rintro ⟨rfl, h⟩
    cases i <;> cases h <;> rfl

theorem instrOfLine_lineOperands {l : AsmLine} {am : Mode} {n : Nat} (h : l.operands = lineOperands am n) :
    instrOfLine l = if n < 32768 then class10Instr l.opcode am (BitVec.ofNat 16 n) else none := by
  unfold instrOfLine
  rw [h]
  cases am <;> rfl

theorem lineOperands_of_modeOfChar {c : Char} {am : Mode} (h : modeOfChar c = some am) (n : Nat) :
    [.value n, .character c] = lineOperands am n := by
  unfold modeOfChar at h
  split_ifs at h with hc hc hc <;> cases h <;> rw [hc] <;> rfl

theorem operands_of_instrOfLine {l : AsmLine} {i : Instr} (h : instrOfLine l = some i) :
    l.operands = [] ∨ ∃ am n, l.operands = lineOperands am n := by
  unfold instrOfLine at h
  split at h
  next hnil => exact .inl hnil
  next n hvalue => exact .inr ⟨.direct, n, hvalue⟩
  next n c hchar =>
    cases hmode : modeOfChar c with
    | none =>
      rw [hmode] at h
      cases h
    | some am => exact .inr ⟨am, n, hchar.trans (lineOperands_of_modeOfChar hmode n)⟩
  next => cases h

/-- The instruction of a line is the one that its mnemonic and its operand field name (R61, R62, R63). -/
theorem instrOfLine_eq_some_iff (l : AsmLine) (i : Instr) :
    instrOfLine l = some i ↔ i.mnemonic = l.opcode ∧
      (i.operands? = none ∧ l.operands = [] ∨
        ∃ am n, n < 32768 ∧ i.operands? = some (am, BitVec.ofNat 16 n) ∧ l.operands = lineOperands am n) := by
  constructor
  · intro h
    rcases operands_of_instrOfLine h with hnil | ⟨am, n, hvalue⟩
    · rw [instrOfLine, hnil] at h
      obtain ⟨hm, ho⟩ := (class5Instr_eq_some_iff _ _).mp h
      exact ⟨hm, .inl ⟨ho, hnil⟩⟩
    · rw [instrOfLine_lineOperands hvalue] at h
      split_ifs at h with hn
      obtain ⟨hm, ho⟩ := (class10Instr_eq_some_iff _ _ _ _).mp h
      exact ⟨hm, .inr ⟨am, n, hn, ho, hvalue⟩⟩
  · rintro ⟨hm, ⟨ho, hnil⟩ | ⟨am, n, hn, ho, hvalue⟩⟩
    · rw [instrOfLine, hnil]
      exact (class5Instr_eq_some_iff _ _).mpr ⟨hm, ho⟩
    · rw [instrOfLine_lineOperands hvalue, if_pos hn]
      exact (class10Instr_eq_some_iff _ _ _ _).mpr ⟨hm, ho⟩

end Sys2Proof.Machine
end

/-! ## What an assembled line adds -/

section
namespace Sys2Proof.Machine

theorem assembleLine_eq_some_iff {l : AsmLine} (hl : l.opcode ≠ "MACH") (st st' : AsmState) :
    assembleLine st l = some st' ↔ ∃ i, instrOfLine l = some i ∧ st' = (st.define l.label).emit i := by
  rw [assembleLine, if_neg hl]
  cases instrOfLine l <;> simp [eq_comm]

@[simp] theorem AsmState.define_location (st : AsmState) (label : Option String) :
    (st.define label).location = st.location := by cases label <;> rfl

@[simp] theorem AsmState.define_code (st : AsmState) (label : Option String) : (st.define label).code = st.code := by
  cases label <;> rfl

@[simp] theorem AsmState.define_machFlag (st : AsmState) (label : Option String) :
    (st.define label).machFlag = st.machFlag := by cases label <;> rfl

@[simp] theorem AsmState.define_flagged (st : AsmState) (label : Option String) :
    (st.define label).flagged = st.flagged := by cases label <;> rfl

theorem AsmState.define_withFlag (st : AsmState) (flag : Nat) (label : Option String) :
    ({ st with machFlag := flag } : AsmState).define label = { st.define label with machFlag := flag } := by
  cases label <;> rfl

/-- Settles O58: nothing that a line adds but its flag reads the flag word. -/
theorem flaggedInstructionsAreAssembledCorrectly : Obligations.FlaggedInstructionsAreAssembledCorrectly := by
  intro st st' l flag h hl
  obtain ⟨i, hi, rfl⟩ := (assembleLine_eq_some_iff hl _ _).mp h
  refine ⟨⟨_, (assembleLine_eq_some_iff hl _ _).mpr ⟨i, hi, rfl⟩, ?_⟩, ?_⟩
  · rw [AsmState.define_withFlag]
    exact ⟨rfl, rfl, rfl⟩
  · simp only [AsmState.emit, machAllows, AsmState.define_flagged, AsmState.define_machFlag, AsmState.define_location]

/-- The words of an instruction at the locations from `loc` on. -/
def placedWords (loc : Nat) (i : Instr) : List (Nat × Word) := (encode i).zipIdx.map fun c => (loc + c.2, c.1)

theorem map_snd_placedWords (loc : Nat) (i : Instr) : (placedWords loc i).map Prod.snd = encode i := by
  simp [placedWords, Function.comp_def]

theorem length_placedWords (loc : Nat) (i : Instr) : (placedWords loc i).length = (encode i).length := by
  simp [placedWords]

theorem location_of_mem_placedWords {loc k : Nat} {i : Instr} {c : Nat × Word} (h : (placedWords loc i)[k]? = some c) :
    c.1 = loc + k := by
  rw [placedWords, List.getElem?_map, List.getElem?_zipIdx, Option.map_map, Option.map_eq_some_iff] at h
  obtain ⟨w, -, rfl⟩ := h
  simp

theorem emit_define_code (st : AsmState) (label : Option String) (i : Instr) :
    ((st.define label).emit i).code = st.code ++ placedWords st.location i := by
  rw [AsmState.emit, AsmState.define_code, AsmState.define_location]
  rfl

theorem length_encode (i : Instr) : (encode i).length = i.length := by cases i <;> rfl

theorem emit_define_location (st : AsmState) (label : Option String) (i : Instr) :
    ((st.define label).emit i).location = st.location + (placedWords st.location i).length := by
  rw [length_placedWords, length_encode, AsmState.emit, AsmState.define_location]

/-- R54's format of the second word, as the bound of its address. -/
theorem wf_iff_of_operands {i : Instr} {am : Mode} {spa : Word} (h : i.operands? = some (am, spa)) :
    i.wf = true ↔ spa.toNat < 32768 := by
  simp [Instr.wf, h, BitVec.msb_eq_decide]

theorem wf_of_operands_none {i : Instr} (h : i.operands? = none) : i.wf = true := by
  rw [Instr.wf, h]

theorem mnemonic_ne_mach (i : Instr) : i.mnemonic ≠ "MACH" := by
  cases i <;> exact of_decide_eq_true rfl

/-- Settles O57: the line's instruction is encoded at the location counter, and decoding inverts encoding (O1). -/
theorem assembledLineDecodesToItsMnemonic : Obligations.AssembledLineDecodesToItsMnemonic := by
  intro st st' l h hl
  obtain ⟨i, hi, rfl⟩ := (assembleLine_eq_some_iff hl _ _).mp h
  obtain ⟨hmnemonic, hoperands⟩ := (instrOfLine_eq_some_iff l i).mp hi
  refine ⟨i, placedWords st.location i, emit_define_code st _ i, ?decode, hmnemonic, ?wf, ?operands,
    emit_define_location st _ i, fun _ _ => location_of_mem_placedWords⟩
  case decode =>
    rw [map_snd_placedWords, ← List.append_nil (encode i)]
    exact decodeOfEncodeIsTheInstruction i []
  case wf =>
    rcases hoperands with ⟨hnone, -⟩ | ⟨am, n, hn, hsome, -⟩
    · exact wf_of_operands_none hnone
    · rw [wf_iff_of_operands hsome, BitVec.toNat_ofNat]
      exact (Nat.mod_le _ _).trans_lt hn
  case operands =>
    refine hoperands.imp_right ?_
    rintro ⟨am, n, hn, hsome, hline⟩
    refine ⟨n, hn, ?_⟩
    cases am with
    | direct => exact .inl ⟨hsome, hline⟩
    | push => exact .inr (.inl ⟨hsome, hline⟩)
    | pop => exact .inr (.inr (.inl ⟨hsome, hline⟩))
    | indexed => exact .inr (.inr (.inr ⟨hsome, hline⟩))

/-- Settles O59: the line names the instruction by its mnemonic and its operand field. -/
theorem everyInstructionHasItsLine : Obligations.EveryInstructionHasItsLine := by
  intro i st label comments hwf operands
  have hi : instrOfLine ⟨label, i.mnemonic, operands, comments⟩ = some i := by
    rw [instrOfLine_eq_some_iff]
    refine ⟨rfl, ?_⟩
    cases hoperands : i.operands? with
    | none => exact .inl ⟨rfl, by simp only [operands, hoperands]⟩
    | some fields =>
      obtain ⟨am, spa⟩ := fields
      have hline : operands = lineOperands am spa.toNat := by
        simp only [operands, hoperands]
        cases am <;> rfl
      refine .inr ⟨am, spa.toNat, (wf_iff_of_operands hoperands).mp hwf, ?_, hline⟩
      rw [BitVec.ofNat_toNat, BitVec.setWidth_eq]
  exact ⟨_, (assembleLine_eq_some_iff (mnemonic_ne_mach i) _ _).mpr ⟨i, hi, rfl⟩, emit_define_code st label i⟩

end Sys2Proof.Machine
end

/-! ## A stack operand that is not ready (R75, R76) -/

section
namespace Sys2Proof.Machine

theorem stackOperand_error_of_not_stackReady {s : State} {am : Mode} {w2 : Word} (h : ¬ s.stackReady am w2) :
    ∃ r, stackOperand am w2 s = .error r := by
  cases hoperand : stackOperand am w2 s with
  | ok op => exact absurd ((stackOperand_eq_ok_iff _ _ _ _).mp hoperand).1 h
  | error r => exact ⟨r, rfl⟩

/-- SLAS is refused by its mode (R110) or, where that is admitted, as its operand is. -/
theorem execSlas_refused_of_stackOperand_error {s : State} {am : Mode} {w2 : Word} {r : Refusal}
    (h : stackOperand am w2 s = .error r) : ∃ r', execSlas am w2 s = .refused r' := by
  cases hmode : checkSlasMode s.cfg am with
  | ok _ =>
    exact ⟨r, (outcome_eq_refused_iff _ _).mpr (bind_eq_error_of_ok hmode (bind_eq_error_of_error h))⟩
  | error r' => exact ⟨r', (outcome_eq_refused_iff _ _).mpr (bind_eq_error_of_error hmode)⟩

/-- Settles O33: each of the 15 begins with StackOperand or with reading the element through it, SLAS after the check of
its mode. -/
theorem unreadyStackOperandIsRefused : Obligations.UnreadyStackOperandIsRefused := by
  intro i am w2 s hoperands hready
  obtain ⟨r, herror⟩ := stackOperand_error_of_not_stackReady hready
  have hoperand (f : StackAccess → Except Refusal State) : outcome (stackOperand am w2 s >>= f) = .refused r :=
    (outcome_eq_refused_iff _ _).mpr (bind_eq_error_of_error herror)
  have hread (f : StackAccess × Word → Except Refusal State) : outcome (readElement am w2 s >>= f) = .refused r :=
    (outcome_eq_refused_iff _ _).mpr (bind_eq_error_of_error (bind_eq_error_of_error herror))
  cases i <;> cases hoperands
  case ands => exact ⟨r, hread _⟩
  case adds => exact ⟨r, hread _⟩
  case subs => exact ⟨r, hread _⟩
  case iors => exact ⟨r, hread _⟩
  case xors => exact ⟨r, hread _⟩
  case ldas => exact ⟨r, hread _⟩
  case ldxs => exact ⟨r, hread _⟩
  case emas => exact ⟨r, hread _⟩
  case cmss => exact ⟨r, hread _⟩
  case imss => exact ⟨r, hread _⟩
  case stas => exact ⟨r, hoperand _⟩
  case stxs => exact ⟨r, hoperand _⟩
  case jmps => exact ⟨r, hoperand _⟩
  case jsts => exact ⟨r, hoperand _⟩
  case slas => exact execSlas_refused_of_stackOperand_error herror

end Sys2Proof.Machine
end

/-! ## Loads, jumps and stack locations in each mode (R71 to R74) -/

section
namespace Sys2Proof.Machine

/-- Settles O18: the new P can be set before the POP write-back. -/
theorem loadsCompleteInEveryMode : Obligations.LoadsCompleteInEveryMode := by
  intro am w2 s hready hp
  constructor
  · refine (execLdas_eq_next_iff _ _ _ _).mpr ⟨hready, hp, ?_⟩
    rw [State.popped_setP]
    rfl
  · refine (execLdxs_eq_next_iff _ _ _ _).mpr ⟨hready, hp, ?_⟩
    rw [State.popped_setP]
    rfl

/-- Settles O24: the address written out for each mode is the element address of that mode. -/
theorem jmpsAndSlasUseTheModesElementAddress : Obligations.JmpsAndSlasUseTheModesElementAddress := by
  intro am w2 s sea hready hsea
  have haddr : sea = s.elementAddr am w2 := by
    rw [hsea]
    cases am <;> rfl
  subst haddr
  refine ⟨(execJmps_eq_next_iff _ _ _ _).mpr ⟨hready, ?jmps⟩, fun hp hmode =>
    (execSlas_eq_next_iff _ _ _ _).mpr ⟨hmode, hready, hp, ?slas⟩⟩
  case jmps => exact (State.popped_setP _ _ _ _ _).symm
  case slas =>
    rw [State.popped_setP]
    rfl

end Sys2Proof.Machine
end

/-! ## The stack pointer each mode leaves (R71 to R74, R78) -/

section
namespace Sys2Proof.Machine

theorem State.read_pushed_pointer {s : State} {am : Mode} {w2 : Word} (hm : s.mem.wf) (ham : am ≠ .pop) :
    (s.pushed am w2).mem.read (low15 w2).toNat = pointerLeft am (s.pointerWord w2) := by
  cases am with
  | direct => rfl
  | indexed => rfl
  | pop => exact absurd rfl ham
  | push => exact Memory.read_write_same _ _ _ hm

theorem State.read_popped_pointer {s t : State} {w2 : Word} (hm : t.mem.wf) :
    (s.popped t .pop w2).mem.read (low15 w2).toNat = pointerLeft .pop (s.pointerWord w2) :=
  Memory.read_write_same _ _ _ hm

theorem ElementMemory.wf {i : Instr} {s : State} {am : Mode} {w2 : Word} {m : Memory} (h : ElementMemory i s am w2 m)
    (hm : s.mem.wf) : m.wf := by
  cases h with
  | kept => exact s.pushed_wf am w2 hm
  | written v hwrite => exact Memory.write_wf _ _ _ (s.pushed_wf am w2 hm)

/-- In POP mode the pointer is written last; in the others it is as the PUSH write-back left it, if the element is not
stored over it. -/
theorem exec_stack_pointer {i : Instr} {am : Mode} {w2 : Word} {s t : State} (hoperands : i.operands? = some (am, w2))
    (hm : s.mem.wf) (h : exec i s = .next t)
    (hsea : am = .pop ∨ AccessKind.write ∉ elementAccesses i ∨ s.elementAddr am w2 ≠ low15 w2) :
    t.mem.read (low15 w2).toNat = pointerLeft am (s.pointerWord w2) := by
  obtain ⟨u, hmem, hu⟩ := exec_stack_mem hoperands h
  rw [hmem]
  by_cases ham : am = .pop
  · subst ham
    exact State.read_popped_pointer (hu.wf hm)
  · have hother (hwrite : AccessKind.write ∈ elementAccesses i) : (low15 w2).toNat ≠ (s.elementAddr am w2).toNat :=
      fun heq => by
        rcases hsea.resolve_left ham with hnot | hne
        · exact hnot hwrite
        · exact hne (BitVec.eq_of_toNat_eq heq.symm)
    calc (s.popped u am w2).mem.read (low15 w2).toNat
      _ = u.mem.read (low15 w2).toNat := State.read_popped_other (fun hpop => absurd hpop ham)
      _ = (s.pushed am w2).mem.read (low15 w2).toNat := hu.read_other hother
      _ = pointerLeft am (s.pointerWord w2) := State.read_pushed_pointer hm ham

/-- Settles O45: the values written out for each mode are those of `pointerLeft`. -/
theorem everyModeLeavesItsPointer : Obligations.EveryModeLeavesItsPointer := by
  intro i am w2 s t hoperands hm h hsea
  rw [exec_stack_pointer hoperands hm h hsea]
  cases am <;> rfl

end Sys2Proof.Machine
end

/-! ## A POP after a PUSH (R79) -/

section
namespace Sys2Proof.Machine

theorem execStas_push_element {w2 : Word} {s t : State} (hm : s.mem.wf) (h : execStas .push w2 s = .next t) :
    t.load (s.elementAddr .push w2) = s.a := by
  obtain ⟨-, -, rfl⟩ := (storeElement_eq_ok_iff _ _ _ _ _).mp ((outcome_eq_next_iff _ _).mp h)
  exact State.load_store_same _ _ _ (s.pushed_wf .push w2 hm)

/-- With the pointer one less, POP uses the element address that PUSH used. -/
theorem State.elementAddr_pop_eq_push {s u : State} {w2 : Word} (hpointer : u.pointerWord w2 = s.pointerWord w2 - 1) :
    u.elementAddr .pop w2 = s.elementAddr .push w2 :=
  congrArg low15 hpointer

/-- With the pointer one less, POP is ready where PUSH was, if the pointer it restores is an admitted address (D3). -/
theorem State.elementReady_pop_of_push {s u : State} {w2 : Word} (hready : s.elementReady .push w2)
    (hadmits : s.admits (s.pointerWord w2)) (hcfg : u.cfg = s.cfg)
    (hpointer : u.pointerWord w2 = s.pointerWord w2 - 1) (hp : u.p.toNat + 1 ≤ 32767) : u.elementReady .pop w2 := by
  obtain ⟨⟨-, hw2, hspa, helement, -⟩, hsea⟩ := hready
  unfold State.elementReady State.stackReady State.admits State.installed
  rw [State.elementAddr_pop_eq_push hpointer, hpointer, hcfg, sub_add_cancel]
  exact ⟨⟨hp, hw2, hspa, helement, fun _ => hadmits⟩, hsea⟩

/-- Settles O46: PUSH leaves the pointer one less and A at the word it then names, which is the word POP reads before it
adds the one again. -/
theorem popReturnsWhatPushStored : Obligations.PopReturnsWhatPushStored := by
  intro w2 s t u hm hpush hne hadmits hmem hcfg hp
  obtain ⟨hready, -, ht⟩ := (storeElement_eq_ok_iff _ _ _ _ _).mp ((outcome_eq_next_iff _ _).mp hpush)
  have hpointer : u.pointerWord w2 = s.pointerWord w2 - 1 := by
    rw [State.pointerWord, State.load, hmem]
    exact exec_stack_pointer rfl hm hpush (.inr (.inr hne))
  have hcfgs : u.cfg = s.cfg := hcfg.trans (effect_of_storeElement hpush).cfg_eq
  have hpop := (execLdas_eq_next_iff .pop w2 u _).mpr
    ⟨State.elementReady_pop_of_push hready hadmits hcfgs hpointer (by omega), hp, rfl⟩
  have hwf : u.mem.wf := by
    rw [hmem, ht]
    exact Memory.write_wf _ _ _ (s.pushed_wf .push w2 hm)
  refine ⟨_, hpop, ?a, ?pointer⟩
  case a =>
    calc u.load (u.elementAddr .pop w2)
      _ = t.load (s.elementAddr .push w2) := by
        rw [State.elementAddr_pop_eq_push hpointer, State.load, State.load, hmem]
      _ = s.a := execStas_push_element hm hpush
  case pointer =>
    calc _ = u.pointerWord w2 + 1 := exec_stack_pointer (i := .ldas .pop w2) rfl hwf hpop (.inl rfl)
      _ = s.pointerWord w2 := by rw [hpointer, sub_add_cancel]

end Sys2Proof.Machine
end

/-! ## Arithmetic and logical instructions in each mode (R80 to R84) -/

section
namespace Sys2Proof.Machine

/-- The state that the five leave where they complete; the new P can be set before the POP write-back. -/
theorem outcome_combineWithA_eq_next (f : Word → Word → Word) (overflows : Word → Word → Bool) {am : Mode} {w2 : Word}
    {s : State} (hready : s.elementReady am w2) (hp : s.p.toNat + 2 ≤ 32767) :
    outcome (combineWithA f overflows am w2 s) = .next (s.popped { s.pushed am w2 with
      a := f s.a (s.element am w2)
      ov := s.ov || overflows s.a (s.element am w2)
      p := s.p + 2 } am w2) := by
  refine (outcome_eq_next_iff _ _).mpr ((combineWithA_eq_ok_iff _ _ _ _ _ _).mpr ⟨hready, hp, ?_⟩)
  rw [State.popped_setP, ← State.pushed_ov s am w2]
  rfl

/-- With the condition that never holds, OV is left as it was. -/
theorem outcome_combineWithA_neverOverflows (f : Word → Word → Word) {am : Mode} {w2 : Word} {s : State}
    (hready : s.elementReady am w2) (hp : s.p.toNat + 2 ≤ 32767) :
    outcome (combineWithA f neverOverflows am w2 s) = .next (s.popped { s.pushed am w2 with
      a := f s.a (s.element am w2), p := s.p + 2 } am w2) := by
  rw [outcome_combineWithA_eq_next f neverOverflows hready hp, neverOverflows, Bool.or_false, ← State.pushed_ov s am w2]

/-- Settles O12: `addOverflows` is the exact signed sum out of range. -/
theorem addsAddsElementToA : Obligations.AddsAddsElementToA :=
  fun _ _ _ hready hp => outcome_combineWithA_eq_next (fun a m => a + m) addOverflows hready hp

/-- Settles O13: `subOverflows` is the exact signed difference out of range. -/
theorem subsSubtractsElementFromA : Obligations.SubsSubtractsElementFromA :=
  fun _ _ _ hready hp => outcome_combineWithA_eq_next (fun a m => a - m) subOverflows hready hp

/-- Settles O14: the three are the shape of the five with the condition that never holds. -/
theorem logicalStackInstructionsCombineElementWithA : Obligations.LogicalStackInstructionsCombineElementWithA :=
  fun _ _ _ hready hp =>
    ⟨outcome_combineWithA_neverOverflows (fun a m => a &&& m) hready hp,
      outcome_combineWithA_neverOverflows (fun a m => a ||| m) hready hp,
      outcome_combineWithA_neverOverflows (fun a m => a ^^^ m) hready hp⟩

end Sys2Proof.Machine
end

/-! ## What the instructions that set A from the element leave (R80 to R84, R91, R110) -/

section
namespace Sys2Proof.Machine

theorem ne_eix_of_operands {i : Instr} {am : Mode} {w2 : Word} (hoperands : i.operands? = some (am, w2)) :
    i ≠ .eix := by
  rintro rfl
  cases hoperands

/-- A stack instruction that does not write its element leaves every word but the pointer that POP and PUSH write. -/
theorem exec_read_eq_of_element_not_written {i : Instr} {am : Mode} {w2 : Word} {s t : State}
    (hoperands : i.operands? = some (am, w2)) (hread : AccessKind.write ∉ elementAccesses i) (h : exec i s = .next t)
    (op : StackAccess) (hop : stackOperand am w2 s = .ok op) (n : Nat)
    (hn : ¬ (n = op.spa.toNat ∧ (am = .pop ∨ am = .push))) : t.mem.read n = s.mem.read n := by
  obtain ⟨-, rfl⟩ := (stackOperand_eq_ok_iff _ _ _ _).mp hop
  exact exec_stack_read_other hoperands h (fun hpush heq => hn ⟨heq, .inr hpush⟩) (fun hwrite => absurd hwrite hread)
    (fun hpop heq => hn ⟨heq, .inl hpop⟩)

theorem x_eq_of_combineWithA {f : Word → Word → Word} {overflows : Word → Word → Bool} {am : Mode} {w2 : Word}
    {s t : State} (h : outcome (combineWithA f overflows am w2 s) = .next t) : t.x = s.x := by
  obtain ⟨-, -, rfl⟩ := (combineWithA_eq_ok_iff _ _ _ _ _ _).mp ((outcome_eq_next_iff _ _).mp h)
  simp

theorem x_ov_eq_of_execLdas {am : Mode} {w2 : Word} {s t : State} (h : execLdas am w2 s = .next t) :
    t.x = s.x ∧ t.ov = s.ov := by
  obtain ⟨-, -, rfl⟩ := (execLdas_eq_next_iff _ _ _ _).mp h
  simp

theorem x_ov_eq_of_execSlas {am : Mode} {w2 : Word} {s t : State} (h : execSlas am w2 s = .next t) :
    t.x = s.x ∧ t.ov = s.ov := by
  obtain ⟨-, -, -, rfl⟩ := (execSlas_eq_next_iff _ _ _ _).mp h
  simp

/-- Settles O37: the effect of an instruction says what OV and the parameters become, its accesses what memory does. -/
theorem arithmeticFrame : Obligations.ArithmeticFrame := by
  intro am w2 s t i hi h
  obtain ⟨hoperands, hread, hx⟩ :
      i.operands? = some (am, w2) ∧ AccessKind.write ∉ elementAccesses i ∧ t.x = s.x := by
    simp only [List.mem_cons, List.not_mem_nil, or_false] at hi
    rcases hi with rfl | rfl
    · exact ⟨rfl, by simp [elementAccesses], x_eq_of_combineWithA h⟩
    · exact ⟨rfl, by simp [elementAccesses], x_eq_of_combineWithA h⟩
  have heffect : Effect s t := exec_effect (ne_eix_of_operands hoperands) h
  exact ⟨hx, heffect.cfg_eq, heffect.ov_of_ov, exec_read_eq_of_element_not_written hoperands hread h⟩

/-- Settles O38: as for ADDS, and the three logical instructions have the condition that never raises OV. -/
theorem logicalAndLoadAFrame : Obligations.LogicalAndLoadAFrame := by
  intro am w2 s t i hi h
  obtain ⟨hoperands, hread, hx, hov⟩ :
      i.operands? = some (am, w2) ∧ AccessKind.write ∉ elementAccesses i ∧ t.x = s.x ∧ t.ov = s.ov := by
    simp only [List.mem_cons, List.not_mem_nil, or_false] at hi
    rcases hi with rfl | rfl | rfl | rfl | rfl
    · exact ⟨rfl, by simp [elementAccesses], x_eq_of_combineWithA h, ov_eq_of_combineWithA h⟩
    · exact ⟨rfl, by simp [elementAccesses], x_eq_of_combineWithA h, ov_eq_of_combineWithA h⟩
    · exact ⟨rfl, by simp [elementAccesses], x_eq_of_combineWithA h, ov_eq_of_combineWithA h⟩
    · exact ⟨rfl, by simp [elementAccesses], x_ov_eq_of_execLdas h⟩
    · exact ⟨rfl, by simp [elementAccesses], x_ov_eq_of_execSlas h⟩
  have heffect : Effect s t := exec_effect (ne_eix_of_operands hoperands) h
  exact ⟨hx, hov, heffect.cfg_eq, exec_read_eq_of_element_not_written hoperands hread h⟩

end Sys2Proof.Machine
end

/-! ## Exchange, loads and stores (R90 to R94) -/

section
namespace Sys2Proof.Machine

/-- Settles O15: the new P can be set before the POP write-back. -/
theorem emasExchangesElementAndA : Obligations.EmasExchangesElementAndA := by
  intro am w2 s hready hp
  refine (execEmas_eq_next_iff _ _ _ _).mpr ⟨hready, hp, ?_⟩
  rw [State.popped_setP]
  rfl

/-- The state that the two stores leave where they complete, with the new P set before the POP write-back. -/
theorem outcome_storeElement_eq_next (v : Word) {am : Mode} {w2 : Word} {s : State} (hready : s.elementReady am w2)
    (hp : s.p.toNat + 2 ≤ 32767) :
    outcome (storeElement v am w2 s) =
      .next (s.popped { (s.pushed am w2).store (s.elementAddr am w2) v with p := s.p + 2 } am w2) := by
  refine (outcome_eq_next_iff _ _).mpr ((storeElement_eq_ok_iff _ _ _ _ _).mpr ⟨hready, hp, ?_⟩)
  rw [State.popped_setP]
  rfl

/-- Settles O19: the two are the shape of the stores, with A and with X. -/
theorem storesWriteRegisterToElement : Obligations.StoresWriteRegisterToElement :=
  fun _ _ s hready hp => ⟨outcome_storeElement_eq_next s.a hready hp, outcome_storeElement_eq_next s.x hready hp⟩

/-- Settles O16: StackOperand answers with `access`, in whose terms O18 gives the state that LDAS leaves. -/
theorem ldasLoadsElementIntoA : Obligations.LdasLoadsElementIntoA := by
  intro am w2 s op hop hsea hp
  obtain ⟨hready, rfl⟩ := (stackOperand_eq_ok_iff _ _ _ _).mp hop
  obtain ⟨hldas, -⟩ := loadsCompleteInEveryMode am w2 s ⟨hready, hsea⟩ hp
  refine ⟨?state, ?words⟩
  case state =>
    rw [restore_access]
    exact hldas
  case words => cases am <;> rfl

/-- Settles O17: as for LDAS; the X that forms SEA in indexed mode is that of the state before. -/
theorem ldxsLoadsElementIntoX : Obligations.LdxsLoadsElementIntoX := by
  intro am w2 s op hop hsea hp
  obtain ⟨hready, rfl⟩ := (stackOperand_eq_ok_iff _ _ _ _).mp hop
  obtain ⟨-, hldxs⟩ := loadsCompleteInEveryMode am w2 s ⟨hready, hsea⟩ hp
  refine ⟨?state, ?indexed, ?words⟩
  case state =>
    rw [restore_access]
    exact hldxs
  case indexed =>
    rintro rfl
    rfl
  case words => cases am <;> rfl

end Sys2Proof.Machine
end

/-! ## What LDXS and the instructions that write their element leave (R90, R92 to R94, R101, R103) -/

section
namespace Sys2Proof.Machine

theorem a_ov_eq_of_execLdxs {am : Mode} {w2 : Word} {s t : State} (h : execLdxs am w2 s = .next t) :
    t.a = s.a ∧ t.ov = s.ov := by
  obtain ⟨-, -, rfl⟩ := (execLdxs_eq_next_iff _ _ _ _).mp h
  simp

theorem a_x_ov_eq_of_storeElement {v : Word} {am : Mode} {w2 : Word} {s t : State}
    (h : outcome (storeElement v am w2 s) = .next t) : t.a = s.a ∧ t.x = s.x ∧ t.ov = s.ov := by
  obtain ⟨-, -, rfl⟩ := (storeElement_eq_ok_iff _ _ _ _ _).mp ((outcome_eq_next_iff _ _).mp h)
  simp

theorem a_x_ov_eq_of_execJsts {am : Mode} {w2 : Word} {s t : State} (h : execJsts am w2 s = .next t) :
    t.a = s.a ∧ t.x = s.x ∧ t.ov = s.ov := by
  obtain ⟨-, -, -, rfl⟩ := (execJsts_eq_next_iff _ _ _ _).mp h
  simp

theorem x_ov_eq_of_execEmas {am : Mode} {w2 : Word} {s t : State} (h : execEmas am w2 s = .next t) :
    t.x = s.x ∧ t.ov = s.ov := by
  obtain ⟨-, -, rfl⟩ := (execEmas_eq_next_iff _ _ _ _).mp h
  simp

theorem a_x_eq_of_execImss {am : Mode} {w2 : Word} {s t : State} (h : execImss am w2 s = .next t) :
    t.a = s.a ∧ t.x = s.x := by
  obtain ⟨-, -, rfl⟩ := (execImss_eq_next_iff _ _ _ _).mp h
  simp

/-- A stack instruction leaves every word but its element and the pointer that POP and PUSH write. -/
theorem exec_read_eq_of_ne_element {i : Instr} {am : Mode} {w2 : Word} {s t : State}
    (hoperands : i.operands? = some (am, w2)) (h : exec i s = .next t)
    (op : StackAccess) (hop : stackOperand am w2 s = .ok op) (n : Nat) (hsea : n ≠ op.sea.toNat)
    (hn : ¬ (n = op.spa.toNat ∧ (am = .pop ∨ am = .push))) : t.mem.read n = s.mem.read n := by
  obtain ⟨-, rfl⟩ := (stackOperand_eq_ok_iff _ _ _ _).mp hop
  exact exec_stack_read_other hoperands h (fun hpush heq => hn ⟨heq, .inr hpush⟩) (fun _ => hsea)
    (fun hpop heq => hn ⟨heq, .inl hpop⟩)

/-- Settles O39: LDXS only reads its element. -/
theorem ldxsFrame : Obligations.LdxsFrame := by
  intro am w2 s t h
  obtain ⟨ha, hov⟩ := a_ov_eq_of_execLdxs h
  have heffect : Effect s t := exec_effect (i := .ldxs am w2) nofun h
  exact ⟨ha, hov, heffect.cfg_eq, exec_read_eq_of_element_not_written rfl (by simp [elementAccesses]) h⟩

/-- Settles O41: the three set P alone of the registers. -/
theorem storeFrame : Obligations.StoreFrame := by
  intro am w2 s t i hi h
  obtain ⟨hoperands, ha, hx, hov⟩ :
      i.operands? = some (am, w2) ∧ t.a = s.a ∧ t.x = s.x ∧ t.ov = s.ov := by
    simp only [List.mem_cons, List.not_mem_nil, or_false] at hi
    rcases hi with rfl | rfl | rfl
    · exact ⟨rfl, a_x_ov_eq_of_storeElement h⟩
    · exact ⟨rfl, a_x_ov_eq_of_storeElement h⟩
    · exact ⟨rfl, a_x_ov_eq_of_execJsts h⟩
  have heffect : Effect s t := exec_effect (ne_eix_of_operands hoperands) h
  exact ⟨ha, hx, hov, heffect.cfg_eq, exec_read_eq_of_ne_element hoperands h⟩

/-- Settles O42: of the two, EMAS sets A and leaves OV, and IMSS leaves A and may raise OV. -/
theorem exchangeAndIncrementFrame : Obligations.ExchangeAndIncrementFrame := by
  intro am w2 s t i hi h
  obtain ⟨hoperands, hx, hemas, himss⟩ :
      i.operands? = some (am, w2) ∧ t.x = s.x ∧ (i = .emas am w2 → t.ov = s.ov) ∧ (i = .imss am w2 → t.a = s.a) := by
    simp only [List.mem_cons, List.not_mem_nil, or_false] at hi
    rcases hi with rfl | rfl
    · obtain ⟨hx, hov⟩ := x_ov_eq_of_execEmas h
      exact ⟨rfl, hx, fun _ => hov, nofun⟩
    · obtain ⟨ha, hx⟩ := a_x_eq_of_execImss h
      exact ⟨rfl, hx, nofun, fun _ => ha⟩
  have heffect : Effect s t := exec_effect (ne_eix_of_operands hoperands) h
  exact ⟨hx, heffect.cfg_eq, hemas, fun hi => ⟨himss hi, heffect.ov_of_ov⟩, exec_read_eq_of_ne_element hoperands h⟩

end Sys2Proof.Machine
end

/-! ## Compare, increment and jump in each mode (R100 to R104) -/

section
namespace Sys2Proof.Machine

theorem lessThan_iff (c : Config) (a m : Word) :
    lessThan c a m = true ↔ if c.cmssSigned then a.toInt < m.toInt else a.toNat < m.toNat := by
  unfold lessThan signed
  split <;> exact decide_eq_true_iff

/-- Settles O20: how far CMSS moves P is `compareAdvance`, and the new P can be set before the POP write-back. -/
theorem cmssSkipsByTheComparison : Obligations.CmssSkipsByTheComparison := by
  intro am w2 s n hready hn hp
  have hadvance : compareAdvance s.cfg s.a (s.element am w2) = n := by
    rw [hn, compareAdvance]
    simp only [lessThan_iff]
  refine (execCmss_eq_next_iff _ _ _ _).mpr ⟨hready, by rwa [hadvance], ?_⟩
  rw [hadvance, State.popped_setP]
  rfl

/-- The sum is zero at the one word 0xFFFF. -/
theorem incrementAdvance_add_one (m : Word) : incrementAdvance (m + 1) = if m = 0xFFFF then 3 else 2 := by
  have hzero : m + 1 = 0 ↔ m = 0xFFFF := add_eq_zero_iff_eq_neg
  simp only [incrementAdvance, hzero]

/-- Settles O22: `incOverflows` is the test for 0x7FFF, and the new P can be set before the POP write-back. -/
theorem imssIncrementsAndSkipsOnZero : Obligations.ImssIncrementsAndSkipsOnZero := by
  intro am w2 s n hready hn hp
  have hadvance : incrementAdvance (s.element am w2 + 1) = n := by rw [incrementAdvance_add_one, hn]
  refine (execImss_eq_next_iff _ _ _ _).mpr ⟨hready, by rwa [hadvance], ?_⟩
  rw [hadvance, State.popped_setP, ← State.pushed_ov s am w2]
  rfl

/-- Settles O23: StackOperand answers with `access`, in whose terms `execJmps_eq_next_iff` gives the state left. -/
theorem jmpsLoadsPWithElementAddress : Obligations.JmpsLoadsPWithElementAddress := by
  intro am w2 s op hop
  obtain ⟨hready, rfl⟩ := (stackOperand_eq_ok_iff _ _ _ _).mp hop
  refine ⟨(execJmps_eq_next_iff _ _ _ _).mpr ⟨hready, ?state⟩, ?words⟩
  case state =>
    rw [restore_access]
    rfl
  case words => cases am <;> rfl

/-- The return address of a call, where it is in range, as the word that JSTS stores (D12). -/
theorem zext16_add_two {p : Addr} (hp : p.toNat + 2 ≤ 32767) : zext16 (p + 2) = BitVec.ofNat 16 (p.toNat + 2) := by
  have hsum : (p + 2).toNat = p.toNat + 2 := advance_toNat (advance_eq_ok hp)
  rw [← hsum, BitVec.ofNat_toNat, zext16]

/-- Settles O25: the new P can be set before the POP write-back. -/
theorem jstsStoresReturnAddressAndJumps : Obligations.JstsStoresReturnAddressAndJumps := by
  intro am w2 s hready hp hentry
  refine (execJsts_eq_next_iff _ _ _ _).mpr ⟨hready, hp, hentry, ?_⟩
  rw [State.popped_setP, zext16_add_two hp]
  rfl

end Sys2Proof.Machine
end

/-! ## CMSS under the two values of CMSS_SIGNED (R100) -/

section
namespace Sys2Proof.Machine

/-- The machine that differs only in `CMSS_SIGNED` false. -/
def State.unsigned (s : State) : State := { s with cfg := { s.cfg with cmssSigned := false } }

theorem State.unsigned_element (s : State) (am : Mode) (w2 : Word) : s.unsigned.element am w2 = s.element am w2 := by
  cases am <;> rfl

/-- The states that CMSS leaves from the two machines differ in the parameter alone. -/
theorem State.unsigned_popped_pushed_setP (s : State) (am : Mode) (w2 : Word) (q : Addr) :
    (s.unsigned.popped (s.unsigned.pushed am w2) am w2).setP q =
      ((s.popped (s.pushed am w2) am w2).setP q).unsigned := by
  cases am <;> rfl

/-- What `unsigned` forgets is in the parameters. -/
theorem State.unsigned_eq_and_cfg_eq_iff (s t : State) : s.unsigned = t.unsigned ∧ s.cfg = t.cfg ↔ s = t := by
  constructor
  · rintro ⟨hunsigned, hcfg⟩
    calc s
      _ = { s.unsigned with cfg := s.cfg } := rfl
      _ = { t.unsigned with cfg := t.cfg } := by rw [hunsigned, hcfg]
      _ = t := rfl
  · rintro rfl
    exact ⟨rfl, rfl⟩

/-- Words whose sign bits agree are in the same order signed and unsigned. -/
theorem lessThan_of_msb_eq (c : Config) {a m : Word} (h : a.msb = m.msb) : lessThan c a m = a.ult m := by
  have hsigned : a.slt m = a.ult m := BitVec.slt_eq_ult_of_msb_eq h
  unfold lessThan
  split
  · exact hsigned
  · rfl

theorem compareAdvance_of_msb_eq (c d : Config) {a m : Word} (h : a.msb = m.msb) :
    compareAdvance c a m = compareAdvance d a m := by
  simp only [compareAdvance, lessThan_of_msb_eq _ h]

/-- Settles O21: the parameter has a part in the comparison alone, and there in the order of unequal signs alone. -/
theorem cmssOrderAgreesOnEqualSigns : Obligations.CmssOrderAgreesOnEqualSigns := by
  intro am w2 s t _ _ hmsb
  change execCmss am w2 s = .next t ↔ execCmss am w2 s.unsigned = .next t.unsigned ∧ t.cfg = s.cfg
  have hadvance : compareAdvance s.unsigned.cfg s.unsigned.a (s.unsigned.element am w2) =
      compareAdvance s.cfg s.a (s.element am w2) := by
    rw [State.unsigned_element]
    exact compareAdvance_of_msb_eq _ _ hmsb
  have hcfg (q : Addr) : ((s.popped (s.pushed am w2) am w2).setP q).cfg = s.cfg := by simp
  rw [execCmss_eq_next_iff, execCmss_eq_next_iff, hadvance, State.unsigned_popped_pushed_setP,
    ← State.unsigned_eq_and_cfg_eq_iff, hcfg]
  exact ⟨fun ⟨hready, hp, hstate, hparams⟩ => ⟨⟨hready, hp, hstate⟩, hparams⟩,
    fun ⟨⟨hready, hp, hstate⟩, hparams⟩ => ⟨hready, hp, hstate, hparams⟩⟩

end Sys2Proof.Machine
end

/-! ## What CMSS and JMPS leave (R100, R102) -/

section
namespace Sys2Proof.Machine

theorem a_x_ov_eq_of_execCmss {am : Mode} {w2 : Word} {s t : State} (h : execCmss am w2 s = .next t) :
    t.a = s.a ∧ t.x = s.x ∧ t.ov = s.ov := by
  obtain ⟨-, -, rfl⟩ := (execCmss_eq_next_iff _ _ _ _).mp h
  simp

theorem a_x_ov_eq_of_execJmps {am : Mode} {w2 : Word} {s t : State} (h : execJmps am w2 s = .next t) :
    t.a = s.a ∧ t.x = s.x ∧ t.ov = s.ov := by
  obtain ⟨-, rfl⟩ := (execJmps_eq_next_iff _ _ _ _).mp h
  simp

/-- Settles O40: the two set P alone of the registers, and neither writes its element. -/
theorem compareAndJumpFrame : Obligations.CompareAndJumpFrame := by
  intro am w2 s t i hi h
  obtain ⟨hoperands, hread, ha, hx, hov⟩ :
      i.operands? = some (am, w2) ∧ AccessKind.write ∉ elementAccesses i ∧ t.a = s.a ∧ t.x = s.x ∧ t.ov = s.ov := by
    simp only [List.mem_cons, List.not_mem_nil, or_false] at hi
    rcases hi with rfl | rfl
    · exact ⟨rfl, by simp [elementAccesses], a_x_ov_eq_of_execCmss h⟩
    · exact ⟨rfl, by simp [elementAccesses], a_x_ov_eq_of_execJmps h⟩
  have heffect : Effect s t := exec_effect (ne_eix_of_operands hoperands) h
  exact ⟨ha, hx, hov, heffect.cfg_eq, exec_read_eq_of_element_not_written hoperands hread h⟩

end Sys2Proof.Machine
end

/-! ## A call and its return (R105) -/

section
namespace Sys2Proof.Machine

theorem low15_zext16 (k : Addr) : low15 (zext16 k) = k := by
  rw [low15, zext16, BitVec.setWidth_setWidth_of_le _ (by decide), BitVec.setWidth_eq]

/-- An address as a word is an admitted address under either policy (R76). -/
theorem State.admits_zext16 (s : State) (k : Addr) : s.admits (zext16 k) :=
  .inr (by simp [zext16, BitVec.msb_setWidth])

/-- JMPS through a word that holds an address goes there (R102). -/
theorem execJmps_direct_of_load_eq {u : State} {k back : Addr} (hp : u.p.toNat + 1 ≤ 32767) (hk : u.installed k)
    (hload : u.load k = zext16 back) : execJmps .direct (zext16 k) u = .next (u.setP back) := by
  have hpointer : u.pointerWord (zext16 k) = zext16 back := by rw [State.pointerWord, low15_zext16, hload]
  have hready : u.stackReady .direct (zext16 k) := by
    unfold State.stackReady
    rw [low15_zext16, hpointer]
    exact ⟨hp, u.admits_zext16 k, hk, u.admits_zext16 back, nofun⟩
  have htarget : u.elementAddr .direct (zext16 k) = back := by
    rw [State.elementAddr, hpointer]
    exact low15_zext16 back
  refine (execJmps_eq_next_iff _ _ _ _).mpr ⟨hready, ?_⟩
  rw [htarget]
  rfl

/-- Settles O47: the entry word, which JMPS takes for its stack pointer, holds the address that JSTS stored. -/
theorem jmpsReturnsToTheCaller : Obligations.JmpsReturnsToTheCaller := by
  intro q s t u hm hcall hcfg hp hentry
  obtain ⟨⟨-, hsea⟩, -, -, rfl⟩ := (execJsts_eq_next_iff _ _ _ _).mp hcall
  have hinstalled : u.installed (s.elementAddr .direct q) := by
    rw [State.installed, hcfg]
    exact hsea
  have hreturn : u.load (s.elementAddr .direct q) = zext16 (s.p + 2) :=
    hentry.trans (State.load_store_same s _ _ hm)
  exact ⟨rfl, execJmps_direct_of_load_eq hp hinstalled hreturn⟩

end Sys2Proof.Machine
end

/-! ## SLAS outside direct mode (R110) -/

section
namespace Sys2Proof.Machine

theorem checkSlasMode_eq_error {c : Config} {am : Mode} (hrefuse : c.slasNondirect = .refuse) (hmode : am ≠ .direct) :
    checkSlasMode c am = .error .slasNondirect :=
  if_pos ⟨hmode, hrefuse⟩

/-- Settles O36: the check of the mode comes first, so no other part of SLAS decides the refusal's name. -/
theorem slasRefusedOutsideDirectMode : Obligations.SlasRefusedOutsideDirectMode := by
  intro am w2 s hrefuse hmode
  have hcheck : checkSlasMode s.cfg am = .error .slasNondirect := checkSlasMode_eq_error hrefuse hmode
  exact (outcome_eq_refused_iff _ _).mpr (bind_eq_error_of_error hcheck)

end Sys2Proof.Machine
end

/-! ## Register change instructions (R120 to R123) -/

section
namespace Sys2Proof.Machine

/-- Settles O26: the two are the shape of the register change instructions, with `A & (~X)` in A and in X. -/
theorem bitClearResults : Obligations.BitClearResults := fun _ hp =>
  ⟨(stepOverOneWord_eq_next_iff _ _ _).mpr ⟨hp, rfl⟩, (stepOverOneWord_eq_next_iff _ _ _).mpr ⟨hp, rfl⟩⟩

/-- Settles O27: as for the bit clears, with `A | X`. -/
theorem bitSetResults : Obligations.BitSetResults := fun _ hp =>
  ⟨(stepOverOneWord_eq_next_iff _ _ _).mpr ⟨hp, rfl⟩, (stepOverOneWord_eq_next_iff _ _ _).mpr ⟨hp, rfl⟩⟩

theorem x_ov_eq_of_stepOverOneWord_setA {v : Word} {s t : State} (h : stepOverOneWord s (s.setA v) = .next t) :
    t.x = s.x ∧ t.ov = s.ov := by
  obtain ⟨-, rfl⟩ := (stepOverOneWord_eq_next_iff _ _ _).mp h
  exact ⟨rfl, rfl⟩

theorem a_ov_eq_of_stepOverOneWord_setX {v : Word} {s t : State} (h : stepOverOneWord s (s.setX v) = .next t) :
    t.a = s.a ∧ t.ov = s.ov := by
  obtain ⟨-, rfl⟩ := (stepOverOneWord_eq_next_iff _ _ _).mp h
  exact ⟨rfl, rfl⟩

/-- Settles O43: each of the four sets P and its one destination register, and leaves the other register. -/
theorem registerChangeFrame : Obligations.RegisterChangeFrame := by
  intro s t i hi h
  obtain ⟨hne, hoperands, hx, ha, hov⟩ :
      i ≠ .eix ∧ i.operands? = none ∧ (i ∈ [Instr.bca, .bsa] → t.x = s.x) ∧ (i ∈ [Instr.bcx, .bsx] → t.a = s.a) ∧
        t.ov = s.ov := by
    simp only [List.mem_cons, List.not_mem_nil, or_false] at hi
    rcases hi with rfl | rfl | rfl | rfl
    · obtain ⟨hx, hov⟩ := x_ov_eq_of_stepOverOneWord_setA h
      exact ⟨nofun, rfl, fun _ => hx, by simp, hov⟩
    · obtain ⟨hx, hov⟩ := x_ov_eq_of_stepOverOneWord_setA h
      exact ⟨nofun, rfl, fun _ => hx, by simp, hov⟩
    · obtain ⟨ha, hov⟩ := a_ov_eq_of_stepOverOneWord_setX h
      exact ⟨nofun, rfl, by simp, fun _ => ha, hov⟩
    · obtain ⟨ha, hov⟩ := a_ov_eq_of_stepOverOneWord_setX h
      exact ⟨nofun, rfl, by simp, fun _ => ha, hov⟩
  have hmem : t.mem = s.mem := exec_registerChange_mem hne hoperands h
  exact ⟨hx, ha, hov, (exec_effect hne h).cfg_eq, fun n => by rw [hmem]⟩

end Sys2Proof.Machine
end

/-! ## What a step is: the instruction that was fetched, and no fault but the end of the run (R130, R140, R162) -/

section
namespace Sys2Proof.Machine

/-- Settles O7: the conditions are those under which the fetch answers. -/
theorem stepIsExecOfTheDecodedInstruction : Obligations.StepIsExecOfTheDecodedInstruction := by
  intro s i hhalt hin hdecode
  exact step_of_fetch_ok hhalt ((fetch_eq_ok_iff s i).mpr ⟨hin, (instrAt_eq_ok_iff _ _ _ _).mpr hdecode⟩)

/-- An EIX target completes or is refused: each is the outcome of a computation, but for the EIX, which is refused. -/
theorem execTarget_ne_fault (i : Instr) (s : State) (f : Fault) : execTarget i s ≠ .fault f := by
  cases i with
  | eix => nofun
  | _ => exact outcome_ne_fault _ _

theorem execEix_ne_fault (s : State) (f : Fault) : execEix s ≠ .fault f := by
  unfold execEix
  split
  · exact execTarget_ne_fault _ _ _
  · nofun

/-- None of the 20 instructions faults (R140). -/
theorem exec_ne_fault (i : Instr) (s : State) (f : Fault) : exec i s ≠ .fault f := by
  by_cases hi : i = .eix
  · subst hi
    exact execEix_ne_fault s f
  · rw [← execTarget_eq_exec i s hi]
    exact execTarget_ne_fault i s f

theorem step_ne_fault {s : State} (hhalt : s.cfg.haltAddr ≠ some s.p) (f : Fault) : step s ≠ .fault f := by
  rw [step, if_neg hhalt]
  split
  · exact exec_ne_fault _ _ _
  · nofun

/-- Settles O9: at HALT_ADDR no step is made, and elsewhere a step is a refused fetch or an instruction. -/
theorem stepFaultsExactlyAtHaltAddr : Obligations.StepFaultsExactlyAtHaltAddr := by
  intro s f
  by_cases hhalt : s.cfg.haltAddr = some s.p
  · cases f
    exact iff_of_true (if_pos hhalt) ⟨rfl, hhalt⟩
  · exact iff_of_false (step_ne_fault hhalt f) fun h => hhalt h.2

end Sys2Proof.Machine
end

/-! ## EIX and its target (R125 to R127) -/

section
namespace Sys2Proof.Machine

/-- Settles O31: it is what an EIX that completes has done. -/
theorem eixLeavesWhatItsTargetLeaves : Obligations.EixLeavesWhatItsTargetLeaves := by
  intro s t h
  obtain ⟨i, hi, htarget, hexec⟩ := execEix_next h
  exact ⟨i, htarget, hi, hexec⟩

theorem p_add_one_toNat {s : State} (hp : s.p.toNat + 1 ≤ 32767) : (s.p + 1).toNat = s.p.toNat + 1 :=
  advance_toNat (advance_eq_ok hp)

theorem p_add_one_add_one (p : Addr) : p + 1 + 1 = p + 2 := BitVec.add_assoc p 1 1

/-- EIX runs, at EIX + 1, the one-word instruction whose encoding the word at X is (R125). -/
theorem execEix_of_encode_one {s : State} {i : Instr} (hi : i ≠ .eix) (hp : s.p.toNat + 1 ≤ 32767)
    (hx : s.admits s.x) (hin : s.installed (low15 s.x)) (hword : encode i = [s.load (low15 s.x)]) :
    execEix s = exec i (s.setP (s.p + 1)) := by
  have hsecond := hasSecondWord_of_encode_singleton hword
  rw [execEix_of_oneWord hp hx hin hsecond ((decode_of_not_hasSecondWord hsecond).mpr hword), execTarget_eq_exec i _ hi]

/-- EIX runs, at EIX + 1, the two-word instruction whose encoding the word at X makes with the word at EIX + 2 (R126). -/
theorem execEix_of_encode_two {s : State} {i : Instr} (hp : s.p.toNat + 2 ≤ 32767) (hx : s.admits s.x)
    (hin : s.installed (low15 s.x)) (hin2 : s.installed (s.p + 2))
    (hwords : encode i = [s.load (low15 s.x), s.load (s.p + 2)]) : execEix s = exec i (s.setP (s.p + 1)) := by
  have hi : i ≠ .eix := by
    rintro rfl
    simp [encode] at hwords
  have hp1 : s.p.toNat + 1 ≤ 32767 := by omega
  have hsecond : hasSecondWord (s.load (low15 s.x)) = true := (hasSecondWord_iff _ _).mpr ⟨i, hwords⟩
  have hinstr : instrAt (s.load (low15 s.x)) (s.p + 1) s = .ok i := by
    rw [instrAt_eq_ok_iff, if_pos hsecond, p_add_one_toNat hp1, p_add_one_add_one]
    exact ⟨hp, hin2, (decode_of_hasSecondWord hsecond).mpr hwords⟩
  rw [execEix_of_eixTarget_ok ((eixTarget_eq_ok_iff _ _ _).mpr ⟨hp1, hx, hin, rfl, hinstr⟩), execTarget_eq_exec i _ hi]

/-- Settles O29: the target runs at EIX + 1 and moves P one word on. -/
theorem eixOfOneWordTargetsCompletes : Obligations.EixOfOneWordTargetsCompletes := by
  intro s hp hx hin
  have hp1 : s.p.toNat + 1 ≤ 32767 := by omega
  have htop : (s.setP (s.p + 1)).p.toNat + 1 ≤ 32767 := by
    rw [State.setP_p, p_add_one_toNat hp1]
    exact hp
  obtain ⟨hbca, hbcx⟩ := bitClearResults (s.setP (s.p + 1)) htop
  obtain ⟨hbsa, hbsx⟩ := bitSetResults (s.setP (s.p + 1)) htop
  have hrun (i : Instr) (hi : i ≠ .eix) (hword : encode i = [s.load (low15 s.x)]) :
      exec .eix s = exec i (s.setP (s.p + 1)) := execEix_of_encode_one hi hp1 hx hin hword
  rw [← p_add_one_add_one]
  refine ⟨fun hword => ?bca, fun hword => ?bcx, fun hword => ?bsa, fun hword => ?bsx⟩
  case bca => exact (hrun .bca nofun (by rw [hword]; rfl)).trans hbca
  case bcx => exact (hrun .bcx nofun (by rw [hword]; rfl)).trans hbcx
  case bsa => exact (hrun .bsa nofun (by rw [hword]; rfl)).trans hbsa
  case bsx => exact (hrun .bsx nofun (by rw [hword]; rfl)).trans hbsx

end Sys2Proof.Machine
end

/-! ## Two-word targets that leave P at `loc + 2` (R126) -/

section
namespace Sys2Proof.Machine

theorem setP_add_two_p_toNat {s : State} (hp : s.p.toNat + 2 ≤ 32767) (u : State) :
    (u.setP (s.p + 2)).p.toNat = s.p.toNat + 2 :=
  advance_toNat (advance_eq_ok hp)

theorem p_of_combineWithA {f : Word → Word → Word} {overflows : Word → Word → Bool} {am : Mode} {w2 : Word}
    {s t : State} (h : outcome (combineWithA f overflows am w2 s) = .next t) : t.p.toNat = s.p.toNat + 2 := by
  obtain ⟨-, hp, rfl⟩ := (combineWithA_eq_ok_iff _ _ _ _ _ _).mp ((outcome_eq_next_iff _ _).mp h)
  exact setP_add_two_p_toNat hp _

theorem p_of_storeElement {v : Word} {am : Mode} {w2 : Word} {s t : State}
    (h : outcome (storeElement v am w2 s) = .next t) : t.p.toNat = s.p.toNat + 2 := by
  obtain ⟨-, hp, rfl⟩ := (storeElement_eq_ok_iff _ _ _ _ _).mp ((outcome_eq_next_iff _ _).mp h)
  exact setP_add_two_p_toNat hp _

/-- The eleven stack instructions that are no program transfer (R104) go on to the next instruction in line. -/
theorem exec_p_of_not_programTransfer {am : Mode} {w2 : Word} {s t : State} :
    ∀ i ∈ [Instr.ands am w2, .adds am w2, .subs am w2, .stas am w2, .iors am w2, .xors am w2, .ldas am w2, .emas am w2,
      .slas am w2, .ldxs am w2, .stxs am w2], exec i s = .next t → t.p.toNat = s.p.toNat + 2 := by
  simp only [List.forall_mem_cons, List.not_mem_nil, false_implies, implies_true, and_true]
  refine ⟨p_of_combineWithA, p_of_combineWithA, p_of_combineWithA, p_of_storeElement, p_of_combineWithA,
    p_of_combineWithA, fun h => ?ldas, fun h => ?emas, fun h => ?slas, fun h => ?ldxs, p_of_storeElement⟩
  case ldas =>
    obtain ⟨-, hp, rfl⟩ := (execLdas_eq_next_iff _ _ _ _).mp h
    exact setP_add_two_p_toNat hp _
  case emas =>
    obtain ⟨-, hp, rfl⟩ := (execEmas_eq_next_iff _ _ _ _).mp h
    exact setP_add_two_p_toNat hp _
  case slas =>
    obtain ⟨-, -, hp, rfl⟩ := (execSlas_eq_next_iff _ _ _ _).mp h
    exact setP_add_two_p_toNat hp _
  case ldxs =>
    obtain ⟨-, hp, rfl⟩ := (execLdxs_eq_next_iff _ _ _ _).mp h
    exact setP_add_two_p_toNat hp _

/-- Settles O28: the target runs at EIX + 1 on the two words, and one of the eleven moves P two words on from there. -/
theorem eixTakesSecondWordFromEixPlusTwo : Obligations.EixTakesSecondWordFromEixPlusTwo := by
  intro s i hp hx hin hsecond hin2 hdecode
  have hrun : exec .eix s = exec i (s.setP (s.p + 1)) :=
    execEix_of_encode_two hp hx hin hin2 ((decode_of_hasSecondWord hsecond).mp hdecode)
  refine ⟨hrun, fun t h ⟨am, w2, hmem⟩ => ?_⟩
  have hp1 : s.p.toNat + 1 ≤ 32767 := by omega
  calc t.p.toNat
      _ = (s.p + 1).toNat + 2 := exec_p_of_not_programTransfer i hmem (hrun.symm.trans h)
      _ = s.p.toNat + 3 := by rw [p_add_one_toNat hp1]

end Sys2Proof.Machine
end

/-! ## Targets that modify P (R127) -/

section
namespace Sys2Proof.Machine

/-- Where P is has a part in readiness only through the second word at P + 1 (R75). -/
theorem State.elementReady_setP {s : State} {am : Mode} {w2 : Word} {q : Addr} (hq : q.toNat + 1 ≤ 32767)
    (hready : s.elementReady am w2) : (s.setP q).elementReady am w2 := by
  obtain ⟨⟨-, hspa⟩, hsea⟩ := hready
  exact ⟨⟨hq, hspa⟩, hsea⟩

/-- The three outcomes of CMSS at EIX + 1, counted from EIX (R127). -/
theorem compare_target_from_eix (p : Addr) (equal less : Prop) [Decidable equal] [Decidable less] :
    p + 1 + BitVec.ofNat 15 (if equal then 4 else if less then 2 else 3) =
      p + (if equal then 5 else if less then 3 else 4) := by
  split_ifs <;> exact BitVec.add_assoc p 1 _

/-- The two outcomes of IMSS at EIX + 1, counted from EIX (R127). -/
theorem increment_target_from_eix (p : Addr) (zero : Prop) [Decidable zero] :
    p + 1 + BitVec.ofNat 15 (if zero then 3 else 2) = p + (if zero then 4 else 3) := by
  split_ifs <;> exact BitVec.add_assoc p 1 _

/-- Settles O30: each clause is the instruction's own result (R100 to R103), started from P at EIX + 1. -/
theorem eixTargetsModifyPRelativeToEixPlusOne : Obligations.EixTargetsModifyPRelativeToEixPlusOne := by
  intro s w2 hp hx hin hin2 hw2 hready
  have hloc : (s.p + 1).toNat = s.p.toNat + 1 := p_add_one_toNat (by omega)
  have hready' : (s.setP (s.p + 1)).elementReady .direct w2 := State.elementReady_setP (by omega) hready
  have hfits (n : Nat) (hn : n ≤ 4) : (s.setP (s.p + 1)).p.toNat + n ≤ 32767 := by
    rw [State.setP_p]
    omega
  have hrun (i : Instr) (hwords : encode i = [s.load (low15 s.x), w2]) :
      exec .eix s = exec i (s.setP (s.p + 1)) :=
    execEix_of_encode_two (by omega) hx hin hin2 (by rw [hwords, hw2])
  refine ⟨fun hword => ?cmss, fun hword => ?imss, fun hword hentry => ?jsts, fun hword => ?jmps⟩
  case cmss =>
    rw [hrun (.cmss .direct w2) (by rw [hword]; rfl),
      cmssSkipsByTheComparison .direct w2 _ _ hready' rfl (hfits _ (by split_ifs <;> omega)), ← compare_target_from_eix]
    rfl
  case imss =>
    rw [hrun (.imss .direct w2) (by rw [hword]; rfl),
      imssIncrementsAndSkipsOnZero .direct w2 _ _ hready' rfl (hfits _ (by split_ifs <;> omega)),
      ← increment_target_from_eix]
    rfl
  case jsts =>
    rw [hrun (.jsts .direct w2) (by rw [hword]; rfl),
      jstsStoresReturnAddressAndJumps .direct w2 _ hready' (hfits _ (by omega)) hentry, State.setP_p, hloc]
    rfl
  case jmps =>
    rw [hrun (.jmps .direct w2) (by rw [hword]; rfl)]
    exact (execJmps_eq_next_iff _ _ _ _).mpr ⟨hready'.1, rfl⟩

end Sys2Proof.Machine
end

/-! ## Words that BaseStep gives their meaning (R131) -/

section
namespace Sys2Proof.Machine

theorem execBase_of_eq_some {base : BaseStep} {s t : State} {w : Word} {loc : Addr} (h : base s w loc = some t) :
    execBase base s w loc = .next t := by
  rw [execBase, h]

theorem stepWith_of_isBaseWord (base : BaseStep) {s : State} (hhalt : s.cfg.haltAddr ≠ some s.p)
    (hin : s.installed s.p) (hword : isBaseWord (s.load s.p) = true) :
    stepWith base s = execBase base s (s.load s.p) s.p := by
  rw [stepWith, if_neg hhalt, readWord_eq_ok hin]
  exact if_pos hword

theorem stepWith_of_eix (base : BaseStep) {s : State} (hhalt : s.cfg.haltAddr ≠ some s.p)
    (hin : s.installed s.p) (hword : s.load s.p = 0x0218) : stepWith base s = eixWith base s := by
  rw [stepWith, if_neg hhalt, readWord_eq_ok hin, hword]
  rfl

theorem eixWith_of_isBaseWord (base : BaseStep) {s : State} (hp : s.p.toNat + 1 ≤ 32767) (hx : s.admits s.x)
    (hin : s.installed (low15 s.x)) (hword : isBaseWord (s.load (low15 s.x)) = true) :
    eixWith base s = execBase base s (s.load (low15 s.x)) (s.p + 1) := by
  rw [eixWith, eixWord_eq_ok hp hx hin]
  exact if_pos hword

/-- Settles O55: in line and through EIX, such a word is left to BaseStep. -/
theorem baseStepGivesBaseWordsTheirMeaning : Obligations.BaseStepGivesBaseWordsTheirMeaning := by
  intro base s t hhalt hin
  refine ⟨fun hword hbase => ?inLine, fun heix hp hx hinX hword hbase => ?throughEix⟩
  case inLine => rw [stepWith_of_isBaseWord base hhalt hin (decide_eq_true hword), execBase_of_eq_some hbase]
  case throughEix =>
    rw [stepWith_of_eix base hhalt hin heix, eixWith_of_isBaseWord base hp hx hinX (decide_eq_true hword),
      execBase_of_eq_some hbase]

end Sys2Proof.Machine
end

/-! ## The run that nothing interrupts (R143) -/

section
namespace Sys2Proof.Machine

theorem stepWith_undefined_none (k : Nat) (s : State) :
    stepWith BaseStep.undefined (Interrupts.none k s) = step s :=
  undefinedBaseStepIsStep s

/-- Settles O56, by induction on the number of steps: by O54 each is a `step`, and only a completed one goes on, with the
next number. -/
theorem noInterruptsIsTheUninterruptedRun : Obligations.NoInterruptsIsTheUninterruptedRun := by
  intro n
  induction n with
  | zero => exact fun _ _ => rfl
  | succ n ih =>
    intro k s
    rw [runWith, run, stepWith_undefined_none]
    cases step s with
    | next t => exact ih (k + 1) t
    | fault _ => rfl
    | refused _ => rfl

end Sys2Proof.Machine
end
